-- ==== Sys2Proof/Word.lean ====
section
/-! DEFINITION. The word types of the machine (00_scope R4, R5): bytes of memory and general registers, 16-bit words of `I`, `pc`, the stack entries and the opcode, 12-bit addresses in an opcode, and the name of a general register. -/

namespace Sys2Proof

/-- A general register, a timer or a byte of memory: 8 bits (R4 `XLEN`, `TLEN`). -/
abbrev Byte := BitVec 8

/-- `I`, `pc`, a stack entry or an opcode: 16 bits (R4 `ILEN`, `PCLEN`, `STACK_ENTRY_LEN`; R70). -/
abbrev Word := BitVec 16

/-- The `nnn` field of an opcode: 12 bits (R71). -/
abbrev Addr12 := BitVec 12

/-- The name of a general register, `V0` to `VF` (R20). -/
abbrev Reg := Fin 16

/-- `VF`, the machine's only flag (R21). -/
abbrev Reg.vf : Reg := 15

/-- A logical key, 0x0 to 0xF (R180). -/
abbrev Key := Fin 16

end Sys2Proof
end

