-- ==== Sys2Proof/Config.lean ====
section
/-! DEFINITION. What is fixed for the machine: the parameters of 00_scope R4 with the values of this hardware, the two quirk flags, the inputs of one step, and the two constants without a body (what the spec leaves open). -/

namespace Sys2Proof

/-- `MEM_SIZE` (R4, D1; log 25). -/
abbrev Config.memSize : Nat := 4096

/-- `LOAD_OFFSET`: address of the first program byte and reset value of `pc` (R4, D2; log 25). -/
abbrev Config.loadOffset : Nat := 0x200

/-- The longest image `load_program` takes: `MEM_SIZE - LOAD_OFFSET` (R63). -/
abbrev Config.maxImage : Nat := 3584

/-- `FONT_LEN` (R4, R55). -/
abbrev Config.fontLen : Nat := 80

/-- `GLYPH_LEN` (R4, R142). -/
abbrev Config.glyphLen : Nat := 5

/-- `STACK_DEPTH` (R4, R24). -/
abbrev Config.stackDepth : Nat := 16

/-- `WIDTH`, the framebuffer's columns. PRESUMED (R4, D3; log 8). -/
abbrev Config.width : Nat := 64

/-- `HEIGHT`, the framebuffer's rows. PRESUMED (R4, D3; log 8). -/
abbrev Config.height : Nat := 32

/-- The two quirk flags, fixed at startup (R4, R31, D23). -/
structure Quirks where
  /-- `Q_SHIFT`: 8xy6 and 8xyE take their source from `Vy`. -/
  shift : Bool
  /-- `Q_MEMINC`: Fx55 and Fx65 add `x + 1` to `I`. -/
  memInc : Bool
deriving DecidableEq, Repr, Inhabited

/-- The three inputs of one `Step`, from outside the block (R8, R180). -/
structure StepInput where
  /-- `keys_held`, the logical keys held during this step; order and repeats mean nothing (log 23). -/
  keysHeld : List Key
  /-- `keydown`: none, or the key that has just gone down. -/
  keydown : Option Key
  /-- `rand`, the random byte offered to this step. -/
  rand : Byte
deriving DecidableEq, Repr, Inhabited

/-- The quirk setting of this block. The spec gives no default (D23), so it has no body: nothing proves which it is (log 4). -/
opaque Config.quirks : Quirks

/-- The inputs of the `k`-th `Step` where no queued event names them: free values (R8, D14, D15; log 3). -/
opaque Config.freeInput : Nat → StepInput

end Sys2Proof
end

