-- ==== Sys2Proof/Machine/State.lean ====
section
/-! DEFINITION. The state of the block as plain data (10_state R20 to R34), the atomic events that act on it (00_scope R7), what it gives the host, the reasons a step can stop, and the state after the power-on reset. -/

namespace Sys2Proof.Machine

/-- Memory: the bytes that differ from the power-on contents, as (address, byte) pairs, addresses strictly rising (R27, R50; log 10). -/
abbrev Memory := List Host.Cell

/-- The grid of pixels, `FB[cy][cx]`: rows of columns, `true` is on (R28, R160). -/
abbrev FrameBuffer := Vector (Vector Bool Config.width) Config.height

/-- The framebuffer with its dirty flag: what `clear`, `toggle_pixel` and `take_dirty` act on (R28, R29, R160). -/
structure Display where
  /-- `FB` (R28). -/
  fb : FrameBuffer
  /-- `DIRTY` (R29). -/
  dirty : Bool
deriving DecidableEq, Repr

/-- `FAULT.cause` (R30, R200). -/
inductive FaultCause where
  /-- 0: no fault. -/
  | none
  /-- 1: the fetched word matches no row of the opcode map (R201). -/
  | unknownOpcode
  /-- 2: 2nnn with 16 return addresses on the stack (R202). -/
  | stackOverflow
  /-- 3: 00EE with an empty stack (R203). -/
  | stackUnderflow
deriving DecidableEq, Repr

/-- The fault latch `FAULT` (R30). -/
structure FaultLatch where
  cause : FaultCause
  /-- The opcode of the faulting step; meaningful only while `cause` is not `none`. -/
  opcode : Word
deriving DecidableEq, Repr

/-- An atomic event that acts on the block (R7). -/
inductive Event where
  /-- One instruction of the engine, with its inputs (R8, R74). -/
  | step (inp : StepInput)
  /-- The timer driver's `Tick` (R210). -/
  | tick
  /-- The host's `Reset` (R230). -/
  | reset
  /-- The host's `load_program` (R63). -/
  | loadProgram (image : List Byte)
  /-- The host's `take_dirty` (R163). -/
  | takeDirty
  /-- The host reads the pixel grid (R166). -/
  | readGrid
  /-- The host's `dump` of memory (R63). -/
  | dump
  /-- The host reads the fault record (R206, R213). -/
  | readFault
deriving DecidableEq, Repr

/-- What the block gives the host (R213). -/
inductive Output where
  /-- A tone event (R211). -/
  | tone
  /-- The answer of `take_dirty` (R163). -/
  | dirty (wasDirty : Bool)
  /-- The pixel grid (R166). -/
  | grid (fb : FrameBuffer)
  /-- The bytes of memory (R63). -/
  | memory (bytes : List Byte)
  /-- The fault record (R206). -/
  | faultRecord (f : FaultLatch)
deriving DecidableEq, Repr

/-- The whole machine: the state of 10_state, the configuration it was started with, and the model's own bookkeeping. -/
structure State where
  /-- `V[0..15]` (R20). -/
  v : Vector Byte 16
  /-- `I` (R22). -/
  i : Word
  /-- `pc` (R23). -/
  pc : Word
  /-- `SP`, the depth of the call stack, 0 to 16 (R24). -/
  sp : Fin 17
  /-- `STACK[0..15]` (R24). -/
  stack : Vector Word 16
  /-- `DT` (R25). -/
  dt : Byte
  /-- `ST` (R26). -/
  st : Byte
  /-- `MEM` (R27). -/
  mem : Memory
  /-- `FB` and `DIRTY` (R28, R29). -/
  display : Display
  /-- `FAULT` (R30). -/
  fault : FaultLatch
  /-- The quirk setting of this run; no event changes it (R31; log 4). -/
  quirks : Quirks
  /-- The model's own: the events to come, the next first (R7; log 2). -/
  events : List Event
  /-- The model's own: how many `Step` events there have been (log 3). -/
  stepNo : Nat
  /-- The model's own: what the block has given the host, the oldest first (R213; log 20). -/
  out : List Output
  /-- The model's own: whether `load_program` is allowed now (R63, D27; log 19). -/
  loadable : Bool
deriving DecidableEq, Repr

/-- Why the machine stops with a fault. The three faults of the spec are NOT here: a step that raises one answers a next state with the latch written (R206; log 1). -/
inductive Fault where
  /-- Raised by `step` when the queue names a `load_program` outside its window: before a Reset, after a Step, or a second time. The spec rules this move of the host out (R63, D27). Safe: the model stops where a host that breaks the rule would go on. -/
  | loadOutsideWindow
deriving DecidableEq, Repr

/-- Why the machine refuses. -/
inductive Refusal where
  /-- Raised by an arm of `exec` for an instruction that has no meaning yet: none does now. Safe. -/
  | notModelled (mnemonic : String)
  /-- Raised by `step` when the queue names a `load_program` of more than 3584 bytes, for which the block's behaviour is not defined (R63, U4). Safe. -/
  | imageTooLong
deriving DecidableEq, Repr

/-- Every pixel off and `DIRTY` set: the display after `clear()` (R161, R34). -/
def Display.cleared : Display := ⟨Vector.replicate Config.height (Vector.replicate Config.width false), true⟩

/-- The state after the power-on `Reset`, before `load_program` (R34, R230, R231): no byte of memory differs from the power-on contents. The stack entries (log 5), `FAULT.opcode` (log 6) and the model's own fields are named in the log. -/
def State.reset : State where
  v := Vector.replicate 16 0
  i := 0
  pc := BitVec.ofNat 16 Config.loadOffset
  sp := 0
  stack := Vector.replicate 16 0
  dt := 0
  st := 0
  mem := []
  display := Display.cleared
  fault := ⟨.none, 0⟩
  quirks := Config.quirks
  events := []
  stepNo := 0
  out := []
  loadable := true

end Sys2Proof.Machine
end

