-- ==== Sys2Proof/Machine/Flags.lean ====
section
/-! DEFINITION. The values written to `VF`, the machine's only flag (10_state R21). Every one is 0 or 1. -/

namespace Sys2Proof.Machine

/-- A condition as the byte 1 or 0. -/
def flagOf (c : Bool) : Byte := if c then 1 else 0

/-- 8xy4: the carry out of bit 7, 1 if the sum passes 255 (R126). -/
def flagCarry (a b : Byte) : Byte := flagOf (decide (255 < a.toNat + b.toNat))

/-- 8xy5 and 8xy7: 1 if `a` is strictly greater than `b`; equal operands give 0 (R127, R129, R132). -/
def flagGreater (a b : Byte) : Byte := flagOf (decide (b.toNat < a.toNat))

/-- 8xy6: bit 0 of the shifted source (R128). -/
def flagBit0 (a : Byte) : Byte := flagOf (a.getLsbD 0)

/-- 8xyE: bit 7 of the shifted source as 0 or 1 (R130, D11; log 14). -/
def flagBit7 (a : Byte) : Byte := flagOf (a.getLsbD 7)

/-- Dxyn: 1 if a pixel was erased (R165). -/
def flagCollision (hit : Bool) : Byte := flagOf hit

end Sys2Proof.Machine
end

