-- ==== Sys2Proof/Machine/Ops.lean ====
section
/-! DEFINITION. The named operations on the state: registers, the program counter, the stack, memory, the framebuffer contract, the inputs of a step, and raising a fault. -/

namespace Sys2Proof.Machine

/-! ## Registers (R6) -/

/-- Read general register `x` (R20). -/
def State.getV (s : State) (x : Reg) : Byte := s.v[x.val]

/-- `V[x] <- b` (R20). -/
def State.setV (s : State) (x : Reg) (b : Byte) : State := { s with v := s.v.set x.val b }

/-- All general registers at once, for the block load (R145). -/
def State.setRegs (s : State) (v : Vector Byte 16) : State := { s with v := v }

/-- `I <- a` (R22). -/
def State.setI (s : State) (a : Word) : State := { s with i := a }

/-- `DT <- b` (R25). -/
def State.setDt (s : State) (b : Byte) : State := { s with dt := b }

/-- `ST <- b` (R26). -/
def State.setSt (s : State) (b : Byte) : State := { s with st := b }

/-- `pc <- a` (R23). -/
def State.setPc (s : State) (a : Word) : State := { s with pc := a }

/-- `npc = (pc0 + 2) mod 65536`, the address of the next instruction in sequence (R74; log 12). -/
def State.npc (s : State) : Word := s.pc + 2

/-- `pc <- npc`: how every instruction that is no control transfer ends (R74), on the state its other writes leave. -/
def State.advance (s : State) : State := s.setPc s.npc

/-- How a skip ends: `(npc + 2) mod 65536` if the condition holds, else `npc` (R103). -/
def State.skipIf (s : State) (c : Bool) : State := s.setPc (if c then s.npc + 2 else s.npc)

/-! ## The call stack (R24; log 29) -/

/-- `STACK[SP] <- a; SP <- SP + 1`, where the stack is not full (R102). -/
def State.push (s : State) (a : Word) (h : s.sp.val < Config.stackDepth) : State :=
  { s with stack := s.stack.set s.sp.val a h, sp := ⟨s.sp.val + 1, Nat.succ_lt_succ h⟩ }

/-- `STACK[SP - 1]`, the newest return address, where the stack is not empty (R24, R100). -/
def State.top (s : State) (h : 0 < s.sp.val) : Word :=
  s.stack[s.sp.val - 1]'(Nat.lt_of_lt_of_le (Nat.sub_lt h Nat.one_pos) (Nat.le_of_lt_succ s.sp.isLt))

/-- `SP <- SP - 1`; the entry is not erased (R100). -/
def State.drop (s : State) : State :=
  { s with sp := ⟨s.sp.val - 1, Nat.lt_of_le_of_lt (Nat.sub_le _ _) s.sp.isLt⟩ }

/-! ## Memory (R50 to R56; log 10) -/

/-- `FONT`, the 80 bytes at address 0 (R55, D4). PRESUMED (log 7). -/
def fontBytes : List Byte :=
  [0xF0, 0x90, 0x90, 0x90, 0xF0,  -- 0
   0x20, 0x60, 0x20, 0x20, 0x70,  -- 1
   0xF0, 0x10, 0xF0, 0x80, 0xF0,  -- 2
   0xF0, 0x10, 0xF0, 0x10, 0xF0,  -- 3
   0x90, 0x90, 0xF0, 0x10, 0x10,  -- 4
   0xF0, 0x80, 0xF0, 0x10, 0xF0,  -- 5
   0xF0, 0x80, 0xF0, 0x90, 0xF0,  -- 6
   0xF0, 0x10, 0x20, 0x40, 0x40]  -- 7
  ++
  [0xF0, 0x90, 0xF0, 0x90, 0xF0,  -- 8
   0xF0, 0x90, 0xF0, 0x10, 0xF0,  -- 9
   0xF0, 0x90, 0xF0, 0x90, 0x90,  -- A
   0xE0, 0x90, 0xE0, 0x90, 0xE0,  -- B
   0xF0, 0x80, 0x80, 0x80, 0xF0,  -- C
   0xE0, 0x90, 0x90, 0x90, 0xE0,  -- D
   0xF0, 0x80, 0xF0, 0x80, 0xF0,  -- E
   0xF0, 0x80, 0xF0, 0x80, 0x80]  -- F

/-- What an address that the list does not name reads as: the power-on contents, the font at 0 to 79 and zero above (R34, R55, R231). -/
def Memory.unlisted (a : Nat) : Byte := fontBytes.getD a 0

/-- The byte at an address below `MEM_SIZE`. -/
def Memory.readByte : Memory → Nat → Byte
  | [], a => Memory.unlisted a
  | c :: m, a => if c.1 = a then c.2 else Memory.readByte m a

/-- `m` with the pair (`a`, `b`) in front, unless `b` is what an unlisted address reads as. -/
def Memory.consCell (a : Nat) (b : Byte) (m : Memory) : Memory :=
  if b = Memory.unlisted a then m else (a, b) :: m

/-- The memory with byte `b` at address `a`, in canonical form. -/
def Memory.writeByte : Memory → Nat → Byte → Memory
  | [], a, b => Memory.consCell a b []
  | c :: m, a, b =>
    if c.1 < a then c :: Memory.writeByte m a b
    else if c.1 = a then Memory.consCell a b m
    else Memory.consCell a b (c :: m)

/-- The addresses of the list rise strictly, from `lo` upward, and lie below `MEM_SIZE`; no entry equals what an unlisted address reads as. -/
def Memory.wfFrom : Nat → Memory → Bool
  | _, [] => true
  | lo, c :: m =>
    decide (lo ≤ c.1) && decide (c.1 < Config.memSize) && decide (c.2 ≠ Memory.unlisted c.1) && Memory.wfFrom (c.1 + 1) m

/-- The canonical form of a memory. -/
def Memory.wf (m : Memory) : Bool := Memory.wfFrom 0 m

/-- `MemRead(addr, 1)`: the address is reduced mod `MEM_SIZE`; nothing faults (R51; log 11). -/
def Memory.load (m : Memory) (addr : Nat) : Byte := m.readByte (addr % Config.memSize)

/-- `MemWrite(addr, 1, b)`: the address is reduced mod `MEM_SIZE`; nothing faults, and the font is ordinary memory (R51, R56; logs 11, 26). -/
def Memory.store (m : Memory) (addr : Nat) (b : Byte) : Memory := m.writeByte (addr % Config.memSize) b

/-- `k` bytes at ascending addresses, each reduced on its own (R62). -/
def Memory.loadBlock (m : Memory) : Nat → Nat → List Byte
  | _, 0 => []
  | addr, k + 1 => m.load addr :: Memory.loadBlock m (addr + 1) k

/-- Bytes stored at ascending addresses, each reduced on its own (R62). -/
def Memory.storeBlock : Memory → Nat → List Byte → Memory
  | m, _, [] => m
  | m, addr, b :: bs => Memory.storeBlock (m.store addr b) (addr + 1) bs

/-- `load_font(FONT)`: the font region gets the font's bytes again (R63, R230). -/
def Memory.loadFont (m : Memory) : Memory := m.storeBlock 0 fontBytes

/-- `MemRead(addr, 1)` in a state. -/
def State.memRead (s : State) (addr : Nat) : Byte := s.mem.load addr

/-- The state with bytes stored at ascending addresses. -/
def State.memWrite (s : State) (addr : Nat) (bs : List Byte) : State := { s with mem := s.mem.storeBlock addr bs }

/-- `MemRead(pc0, 2)`: the opcode at `pc`, big-endian, each byte's address reduced on its own (R52, R74). -/
def State.fetchWord (s : State) : Word := opOfBytes (s.memRead s.pc.toNat) (s.memRead (s.pc.toNat + 1))

/-! ## The framebuffer contract (R160 to R163) -/

/-- The pixel that the coordinates (`px`, `py`) name, after reduction mod `WIDTH` and mod `HEIGHT` (R160). -/
def FrameBuffer.pixel (fb : FrameBuffer) (px py : Nat) : Bool :=
  (fb[py % Config.height]'(Nat.mod_lt _ (by decide)))[px % Config.width]'(Nat.mod_lt _ (by decide))

/-- The grid with the pixel that (`px`, `py`) name turned to its opposite. -/
def FrameBuffer.flip (fb : FrameBuffer) (px py : Nat) : FrameBuffer :=
  fb.set (py % Config.height)
    ((fb[py % Config.height]'(Nat.mod_lt _ (by decide))).set (px % Config.width) (!fb.pixel px py) (Nat.mod_lt _ (by decide)))
    (Nat.mod_lt _ (by decide))

/-- `clear()` (R161). -/
def Display.clear (_d : Display) : Display :=
  ⟨Vector.replicate Config.height (Vector.replicate Config.width false), true⟩

/-- `toggle_pixel(px, py)`: the display after it, and whether it erased a pixel (R162). -/
def Display.togglePixel (d : Display) (px py : Nat) : Display × Bool :=
  (⟨d.fb.flip px py, true⟩, d.fb.pixel px py)

/-- `take_dirty()`: the display after it, and its answer (R163). -/
def Display.takeDirty (d : Display) : Display × Bool := ({ d with dirty := false }, d.dirty)

/-- One sprite bit: a set bit toggles its pixel, a clear bit does nothing; `hit` collects the collisions (R165). -/
def Display.plot (acc : Display × Bool) (bit : Bool) (px py : Nat) : Display × Bool :=
  if bit then
    let (d, collided) := acc.1.togglePixel px py
    (d, acc.2 || collided)
  else acc

/-- The first `k` columns of a sprite row `b`, ascending; bit 7 is the leftmost (R165, D20; log 9). -/
def Display.drawRow (acc : Display × Bool) (b : Byte) (px py : Nat) : Nat → Display × Bool
  | 0 => acc
  | c + 1 => Display.plot (Display.drawRow acc b px py c) (b.getLsbD (7 - c)) (px + c) py

/-- The rows of a sprite, ascending, row `r` at `py + r` (R165, D20; log 9). -/
def Display.drawRows : Display × Bool → List Byte → Nat → Nat → Display × Bool
  | acc, [], _, _ => acc
  | acc, b :: bs, px, py => Display.drawRows (Display.drawRow acc b px py 8) bs px (py + 1)

/-- The state with another display. -/
def State.setDisplay (s : State) (d : Display) : State := { s with display := d }

/-! ## The inputs of a step (R8; logs 2, 3) -/

/-- The next event: the head of the queue, or, where the queue is empty, a `Step` with free inputs. -/
def State.nextEvent (s : State) : Event :=
  match s.events with
  | [] => .step (Config.freeInput s.stepNo)
  | e :: _ => e

/-- The inputs of the current step: those the head of the queue names, or else free ones. -/
def State.input (s : State) : StepInput :=
  match s.events with
  | .step inp :: _ => inp
  | _ => Config.freeInput s.stepNo

/-! ## Faults (R200 to R208; logs 1, 18) -/

/-- Taking a fault: `FAULT.cause` and `FAULT.opcode` are written and nothing else; `pc` stays `pc0` (R206). -/
def State.raise (s : State) (cause : FaultCause) (op : Word) : State := { s with fault := ⟨cause, op⟩ }

/-- The only way out of the halted state, inside `Reset`: `FAULT.cause <- 0`; the opcode is not touched (R208, R230; log 6). -/
def State.clearFault (s : State) : State := { s with fault := { s.fault with cause := .none } }

/-- The engine is halted (R207). -/
def State.halted (s : State) : Bool := decide (s.fault.cause ≠ .none)

/-- The numeric code of a cause (R30, R200). -/
def FaultCause.code : FaultCause → BitVec 2
  | .none => 0
  | .unknownOpcode => 1
  | .stackOverflow => 2
  | .stackUnderflow => 3

end Sys2Proof.Machine
end

