-- ==== Sys2Proof/Machine/Operands.lean ====
section
/-! DEFINITION. The operand forms (30_encoding R73): immediates widened to a word, the shift source, the key a register names, the decimal digits, the glyph address, and the register block. -/

namespace Sys2Proof.Machine

/-- `nnn` zero-extended to 16 bits (R73). -/
def wordOfAddr (nnn : Addr12) : Word := nnn.zeroExtend 16

/-- A register's byte zero-extended to 16 bits (R6 `zext`). -/
def wordOfByte (b : Byte) : Word := b.zeroExtend 16

/-- A key as a register holds it: the upper four bits are 0 (R183). -/
def byteOfKey (k : Key) : Byte := BitVec.ofNat 8 k.val

/-- The source of 8xy6 and 8xyE: `Vy` with `Q_SHIFT`, else `Vx` (R128, R130). -/
def State.shiftSource (s : State) (x y : Reg) : Byte := if s.quirks.shift then s.getV y else s.getV x

/-- The byte `a` is a member of `keys_held`; a value above 0xF never is (R180, D13; log 15). -/
def keyHeld (inp : StepInput) (a : Byte) : Bool := inp.keysHeld.any (fun k => k.val == a.toNat)

/-- The decimal digits of a byte, hundreds, tens and ones, a byte each (R143). -/
def bcdDigits (a : Byte) : List Byte :=
  [BitVec.ofNat 8 (a.toNat / 100), BitVec.ofNat 8 (a.toNat / 10 % 10), BitVec.ofNat 8 (a.toNat % 10)]

/-- `a * 5`, the address of the glyph for digit `a`; no mask (R142, D18; log 16). -/
def glyphAddress (a : Byte) : Word := BitVec.ofNat 16 (a.toNat * Config.glyphLen)

/-- The bytes of `V0` to `Vx` (R144). -/
def State.regBlock (s : State) (x : Reg) : List Byte := s.v.toList.take (x.val + 1)

/-- The general registers after `V0` to `Vx` are loaded from memory at `addr` upward (R145). -/
def State.loadRegBlock (s : State) (x : Reg) (addr : Nat) : Vector Byte 16 :=
  Vector.ofFn (fun r => if r ≤ x then s.memRead (addr + r.val) else s.getV r)

/-- `I` after Fx55 or Fx65: with `Q_MEMINC` `(I + x + 1) mod 65536`, else unchanged (R144, R145, D19; log 28). -/
def State.blockEndI (s : State) (x : Reg) : Word :=
  if s.quirks.memInc then BitVec.ofNat 16 (s.i.toNat + x.val + 1) else s.i

end Sys2Proof.Machine
end

