-- ==== Sys2Proof/Machine/Alu.lean ====
section
/-! DEFINITION. Register load, arithmetic, logic, shifts, random: 6xkk, 7xkk, 8xy0 to 8xy7, 8xyE, Cxkk (41_alu). Operands are read before any write, and the writes follow the order of the rule (R133; log 13): where `x` names `VF` the later write stays. -/

namespace Sys2Proof.Machine

/-- A result in `Vx`, then `pc <- npc`. -/
def State.finish (s : State) (x : Reg) (b : Byte) : State := (s.setV x b).advance

/-- The flag in `VF` first and the result in `Vx` second: 8xy4, 8xy5, 8xy7 (R126, R127, R129, R133). -/
def State.finishFlagFirst (s : State) (x : Reg) (b flag : Byte) : State := ((s.setV Reg.vf flag).setV x b).advance

/-- The result in `Vx` first and the flag in `VF` second: 8xy6, 8xyE (R128, R130, R133). -/
def State.finishFlagLast (s : State) (x : Reg) (b flag : Byte) : State := ((s.setV x b).setV Reg.vf flag).advance

/-- LD Vx, kk (R120). -/
def execLdImm (x : Reg) (kk : Byte) (s : State) : Host.Outcome State Fault Refusal := .next (s.finish x kk)

/-- ADD Vx, kk (R121): no flag. -/
def execAddImm (x : Reg) (kk : Byte) (s : State) : Host.Outcome State Fault Refusal :=
  .next (s.finish x (s.getV x + kk))

/-- LD Vx, Vy (R122). -/
def execLdReg (x y : Reg) (s : State) : Host.Outcome State Fault Refusal := .next (s.finish x (s.getV y))

/-- OR Vx, Vy (R123): no flag. -/
def execOr (x y : Reg) (s : State) : Host.Outcome State Fault Refusal := .next (s.finish x (s.getV x ||| s.getV y))

/-- AND Vx, Vy (R124): no flag. -/
def execAnd (x y : Reg) (s : State) : Host.Outcome State Fault Refusal := .next (s.finish x (s.getV x &&& s.getV y))

/-- XOR Vx, Vy (R125): no flag. -/
def execXor (x y : Reg) (s : State) : Host.Outcome State Fault Refusal := .next (s.finish x (s.getV x ^^^ s.getV y))

/-- ADD Vx, Vy (R126): the carry, then the sum. -/
def execAddReg (x y : Reg) (s : State) : Host.Outcome State Fault Refusal :=
  .next (s.finishFlagFirst x (s.getV x + s.getV y) (flagCarry (s.getV x) (s.getV y)))

/-- SUB Vx, Vy (R127): the strict comparison, then the difference. -/
def execSub (x y : Reg) (s : State) : Host.Outcome State Fault Refusal :=
  .next (s.finishFlagFirst x (s.getV x - s.getV y) (flagGreater (s.getV x) (s.getV y)))

/-- SHR Vx, Vy (R128): the shifted source, then the bit shifted out. -/
def execShr (x y : Reg) (s : State) : Host.Outcome State Fault Refusal :=
  .next (s.finishFlagLast x (s.shiftSource x y >>> 1) (flagBit0 (s.shiftSource x y)))

/-- SUBN Vx, Vy (R129): the strict comparison, then the difference. -/
def execSubn (x y : Reg) (s : State) : Host.Outcome State Fault Refusal :=
  .next (s.finishFlagFirst x (s.getV y - s.getV x) (flagGreater (s.getV y) (s.getV x)))

/-- SHL Vx, Vy (R130): the shifted source, then the bit shifted out. -/
def execShl (x y : Reg) (s : State) : Host.Outcome State Fault Refusal :=
  .next (s.finishFlagLast x (s.shiftSource x y <<< 1) (flagBit7 (s.shiftSource x y)))

/-- RND Vx, kk (R131): the random byte is an input of the step. -/
def execRnd (x : Reg) (kk : Byte) (s : State) : Host.Outcome State Fault Refusal :=
  .next (s.finish x (s.input.rand &&& kk))

end Sys2Proof.Machine
end

