-- ==== Sys2Proof/Machine/Flow.lean ====
section
/-! DEFINITION. Control transfer: 00EE, 1nnn, 2nnn, 3xkk, 4xkk, 5xy0, 9xy0, Bnnn (40_flow_and_skip). `pc0` and `npc` are those of the state the meaning starts in. -/

namespace Sys2Proof.Machine

/-- RET (R100): an empty stack raises `StackUnderflow`; else `SP` goes down and `pc` is the popped entry. -/
def execRet (s : State) : Host.Outcome State Fault Refusal :=
  .next (if h : 0 < s.sp.val then s.drop.setPc (s.top h) else s.raise .stackUnderflow (encode .ret))

/-- JP nnn (R101). -/
def execJp (nnn : Addr12) (s : State) : Host.Outcome State Fault Refusal := .next (s.setPc (wordOfAddr nnn))

/-- CALL nnn (R102): a full stack raises `StackOverflow`; else `npc` is pushed and `pc` is `nnn`. -/
def execCall (nnn : Addr12) (s : State) : Host.Outcome State Fault Refusal :=
  .next (if h : s.sp.val < Config.stackDepth then (s.push s.npc h).setPc (wordOfAddr nnn)
    else s.raise .stackOverflow (encode (.call nnn)))

/-- SE Vx, kk (R103). -/
def execSeImm (x : Reg) (kk : Byte) (s : State) : Host.Outcome State Fault Refusal :=
  .next (s.skipIf (s.getV x == kk))

/-- SNE Vx, kk (R104). -/
def execSneImm (x : Reg) (kk : Byte) (s : State) : Host.Outcome State Fault Refusal :=
  .next (s.skipIf (s.getV x != kk))

/-- SE Vx, Vy (R105). -/
def execSeReg (x y : Reg) (s : State) : Host.Outcome State Fault Refusal :=
  .next (s.skipIf (s.getV x == s.getV y))

/-- SNE Vx, Vy (R106). -/
def execSneReg (x y : Reg) (s : State) : Host.Outcome State Fault Refusal :=
  .next (s.skipIf (s.getV x != s.getV y))

/-- JP V0, nnn (R107): the sum is not reduced to 12 bits. -/
def execJpV0 (nnn : Addr12) (s : State) : Host.Outcome State Fault Refusal :=
  .next (s.setPc (wordOfAddr nnn + wordOfByte (s.getV 0)))

end Sys2Proof.Machine
end

