-- ==== Sys2Proof/Machine/Index.lean ====
section
/-! DEFINITION. Address register and memory block instructions: Annn, Fx1E, Fx29, Fx33, Fx55, Fx65 (42_index_and_memory). None writes a flag. -/

namespace Sys2Proof.Machine

/-- LD I, nnn (R140). -/
def execLdI (nnn : Addr12) (s : State) : Host.Outcome State Fault Refusal :=
  .next (s.setI (wordOfAddr nnn)).advance

/-- ADD I, Vx (R141): mod 65536, no flag. -/
def execAddI (x : Reg) (s : State) : Host.Outcome State Fault Refusal :=
  .next (s.setI (s.i + wordOfByte (s.getV x))).advance

/-- LD F, Vx (R142). -/
def execLdF (x : Reg) (s : State) : Host.Outcome State Fault Refusal :=
  .next (s.setI (glyphAddress (s.getV x))).advance

/-- LD B, Vx (R143): three bytes at `I`, `I + 1`, `I + 2`; `I` is unchanged. -/
def execLdB (x : Reg) (s : State) : Host.Outcome State Fault Refusal :=
  .next (s.memWrite s.i.toNat (bcdDigits (s.getV x))).advance

/-- LD [I], Vx (R144). -/
def execStRegs (x : Reg) (s : State) : Host.Outcome State Fault Refusal :=
  .next ((s.memWrite s.i.toNat (s.regBlock x)).setI (s.blockEndI x)).advance

/-- LD Vx, [I] (R145). -/
def execLdRegs (x : Reg) (s : State) : Host.Outcome State Fault Refusal :=
  .next ((s.setRegs (s.loadRegBlock x s.i.toNat)).setI (s.blockEndI x)).advance

end Sys2Proof.Machine
end

