-- ==== Sys2Proof/Machine/KeysTimers.lean ====
section
/-! DEFINITION. Key and timer instructions: Ex9E, ExA1, Fx07, Fx0A, Fx15, Fx18 (44_keys_and_timers). -/

namespace Sys2Proof.Machine

/-- SKP Vx (R181). -/
def execSkp (x : Reg) (s : State) : Host.Outcome State Fault Refusal := .next (s.skipIf (keyHeld s.input (s.getV x)))

/-- SKNP Vx (R182). -/
def execSknp (x : Reg) (s : State) : Host.Outcome State Fault Refusal := .next (s.skipIf (!keyHeld s.input (s.getV x)))

/-- LD Vx, DT (R184). -/
def execLdVxDt (x : Reg) (s : State) : Host.Outcome State Fault Refusal := .next (s.setV x s.dt).advance

/-- LD Vx, K (R183): without a key-down the step stalls and nothing changes, `pc` included (D14; log 33). -/
def execLdVxK (x : Reg) (s : State) : Host.Outcome State Fault Refusal :=
  .next (match s.input.keydown with
    | none => s
    | some k => (s.setV x (byteOfKey k)).advance)

/-- LD DT, Vx (R185). -/
def execLdDtVx (x : Reg) (s : State) : Host.Outcome State Fault Refusal := .next (s.setDt (s.getV x)).advance

/-- LD ST, Vx (R186): no tone; that belongs to `Tick`. -/
def execLdStVx (x : Reg) (s : State) : Host.Outcome State Fault Refusal := .next (s.setSt (s.getV x)).advance

end Sys2Proof.Machine
end

