-- ==== Sys2Proof/Machine/Screen.lean ====
section
/-! DEFINITION. The two display instructions: 00E0 and Dxyn (43_display). -/

namespace Sys2Proof.Machine

/-- CLS (R164). -/
def execCls (s : State) : Host.Outcome State Fault Refusal := .next (s.setDisplay s.display.clear).advance

/-- The display after the `n`-row sprite at `I` is drawn at (`Vx`, `Vy`), and whether a pixel was erased (R165). -/
def State.drawSprite (s : State) (x y : Reg) (n : Nat) : Display × Bool :=
  Display.drawRows (s.display, false) (s.mem.loadBlock s.i.toNat n) (s.getV x).toNat (s.getV y).toNat

/-- DRW Vx, Vy, n (R165): the coordinates are read before `VF` is written, and `DIRTY` is set even where nothing is toggled. -/
def execDrw (x y : Reg) (n : Nat) (s : State) : Host.Outcome State Fault Refusal :=
  .next (((s.setDisplay { (s.drawSprite x y n).1 with dirty := true }).setV Reg.vf
    (flagCollision (s.drawSprite x y n).2)).advance)

end Sys2Proof.Machine
end

