-- ==== Sys2Proof/Machine/Engine.lean ====
section
/-! DEFINITION. One `Step` of the engine: halted, fetch, decode, execute (30_encoding R74). -/

namespace Sys2Proof.Machine

/-- A next state changed by `f`; a fault or a refusal as it is. -/
def onNext (f : State → State) : Host.Outcome State Fault Refusal → Host.Outcome State Fault Refusal
  | .next s => .next (f s)
  | .fault r => .fault r
  | .refused r => .refused r

/-- The model's bookkeeping after a `Step` event: the event is taken from the queue, the step is counted, and the window of `load_program` is closed (R63; logs 2, 3, 19). Nothing of the block changes. -/
def State.stepDone (s : State) : State :=
  { s with events := s.events.tail, stepNo := s.stepNo + 1, loadable := false }

/-- What the engine does in a `Step`, without the bookkeeping (R74): nothing while halted (R207); else the instruction at `pc`, or `UnknownOpcode` with the word fetched (R201). -/
def engineCore (s : State) : Host.Outcome State Fault Refusal :=
  if s.halted then .next s
  else
    match decodeWord s.fetchWord with
    | .ok ins => exec ins s
    | .error _ => .next (s.raise .unknownOpcode s.fetchWord)

/-- A `Step` event. -/
def engineStep (s : State) : Host.Outcome State Fault Refusal := onNext State.stepDone (engineCore s)

end Sys2Proof.Machine
end

