-- ==== Sys2Proof/Machine/Events.lean ====
section
/-! DEFINITION. The events that are no `Step`: `Tick` and the tone event (60_exceptions R210, R211), `Reset` (70_reset_and_hazards R230), and the host's operations (20_memory R63, 43_display R163, R166). -/

namespace Sys2Proof.Machine

/-- The event at the head of the queue is taken. -/
def State.popEvent (s : State) : State := { s with events := s.events.tail }

/-- Something is given to the host (R213; log 20). -/
def State.emit (s : State) (o : Output) : State := { s with out := s.out ++ [o] }

/-- A timer minus 1 when above 0 (R210). -/
def timerDec (b : Byte) : Byte := if b = 0 then 0 else b - 1

/-- `Tick`: both timers go down, saturating at 0, and a tone is emitted where `ST` was above 0 before (R210, R211, D29; log 27). It runs while stalled and while halted. -/
def State.tick (s : State) : State :=
  let t := { s with dt := timerDec s.dt, st := timerDec s.st }
  if s.st = 0 then t else t.emit .tone

/-- `Reset` (R230, R231; log 22): memory above the font, the stack entries, `FAULT.opcode` and the quirks are not touched. -/
def State.hostReset (s : State) : State :=
  { s.clearFault with
    v := Vector.replicate 16 0
    i := 0
    pc := BitVec.ofNat 16 Config.loadOffset
    sp := 0
    dt := 0
    st := 0
    mem := s.mem.loadFont
    display := s.display.clear
    loadable := true }

/-- `load_program(image)`: the bytes from `LOAD_OFFSET` upward (R63). -/
def State.loadProgram (s : State) (image : List Byte) : State :=
  { s.memWrite Config.loadOffset image with loadable := false }

/-- `load_program` as the host may do it: in its window, and with an image that fits (R63, D27, U4; log 19). -/
def hostLoad (image : List Byte) (s : State) : Host.Outcome State Fault Refusal :=
  if s.loadable then
    if image.length ≤ Config.maxImage then .next (s.loadProgram image) else .refused .imageTooLong
  else .fault .loadOutsideWindow

/-- `take_dirty()` and its answer (R163). -/
def State.hostTakeDirty (s : State) : State :=
  (s.setDisplay s.display.takeDirty.1).emit (.dirty s.display.takeDirty.2)

/-- The host reads the pixel grid; nothing of the block changes (R166). -/
def State.hostReadGrid (s : State) : State := s.emit (.grid s.display.fb)

/-- `dump`: the bytes of the whole memory; nothing of the block changes (R63). -/
def State.hostDump (s : State) : State := s.emit (.memory (s.mem.loadBlock 0 Config.memSize))

/-- The host reads the fault record; nothing of the block changes (R206, R213). -/
def State.hostReadFault (s : State) : State := s.emit (.faultRecord s.fault)

/-- The queue without the events before its first `Step`. -/
def dropToStep : List Event → List Event
  | .step inp :: es => .step inp :: es
  | .tick :: es | .reset :: es | .loadProgram _ :: es | .takeDirty :: es | .readGrid :: es | .dump :: es
  | .readFault :: es => dropToStep es
  | [] => []

/-- The state with an opcode's two bytes stored at `pc`, not halted, and a `Step` as its next event: the very next step runs that opcode (log 21). -/
def State.placeOp (s : State) (op : Word) : State :=
  { (s.memWrite s.pc.toNat (opBytes op)).clearFault with events := dropToStep s.events }

end Sys2Proof.Machine
end

