-- ==== Sys2Proof/Machine/Step.lean ====
section
/-! DEFINITION. One atomic event of the machine (00_scope R7): the next event of the queue, or a `Step` with free inputs where the queue is empty. -/

namespace Sys2Proof.Machine

/-- One event. -/
def step (s : State) : Host.Outcome State Fault Refusal :=
  match s.nextEvent with
  | .step _ => engineStep s
  | .tick => .next s.popEvent.tick
  | .reset => .next s.popEvent.hostReset
  | .loadProgram image => hostLoad image s.popEvent
  | .takeDirty => .next s.popEvent.hostTakeDirty
  | .readGrid => .next s.popEvent.hostReadGrid
  | .dump => .next s.popEvent.hostDump
  | .readFault => .next s.popEvent.hostReadFault

/-- The state with an opcode-table word stored where `step` fetches its next instruction (log 21). -/
def State.withFetchWord (s : State) (nbits w : Nat) : State := s.placeOp (tableOp nbits w)

end Sys2Proof.Machine
end

