-- ==== Sys2Proof/Safety.lean ====
section
/-! DEFINITION. What counts as a safe run, in the terms claims use: no fault recorded (60_exceptions R207), the end of a run (70_reset_and_hazards R233), and the form of a state that every step keeps. -/

namespace Sys2Proof.Machine

/-- No fault is recorded: the halted state is never the normal end of a program (R207). -/
abbrev State.Safe (s : State) : Prop := s.fault.cause = .none

/-- A run has ended: no fault is recorded and the instruction at `pc` is a jump to itself (R233, D31; log 30). -/
abbrev State.RunEnded (s : State) : Prop :=
  s.fault.cause = .none ∧ s.fetchWord = 0x1000 ||| s.pc ∧ s.pc.toNat < Config.memSize

/-- The memory is in canonical form. -/
abbrev State.MemOk (s : State) : Prop := s.mem.wf = true

/-- The fault latch tells the truth about the state it halted (R200 to R203, R206): the recorded opcode is the word at `pc`, and the recorded cause holds of it and of the stack. -/
def State.LatchOk (s : State) : Prop :=
  match s.fault.cause with
  | .none => True
  | .unknownOpcode => s.fault.opcode = s.fetchWord ∧ decodeWord s.fetchWord = .error (.unknownOpcode s.fetchWord)
  | .stackOverflow => s.fault.opcode = s.fetchWord ∧ opFam s.fetchWord = 2 ∧ s.sp.val = Config.stackDepth
  | .stackUnderflow => s.fault.opcode = s.fetchWord ∧ s.fetchWord = 0x00EE ∧ s.sp.val = 0

/-- The window of `load_program` is open only while no fault is recorded (R63, R230). -/
abbrev State.WindowOk (s : State) : Prop := s.loadable = true → s.fault.cause = .none

end Sys2Proof.Machine
end

