-- ==== Sys2Proof/Certificates/Slice0/Obligations.lean ====
section
/-! DEFINITION. The statements for the provers, from the numbered rules of spec/. Numbers are natural numbers with the modulus written out, as the rules write them; a frame says what an instruction leaves as it was. -/

namespace Sys2Proof.Machine

/-! ## Frames -/

/-- Every general register reads as before. -/
def KeepsRegs (s t : State) : Prop := ∀ r, t.getV r = s.getV r

/-- Every general register but those that `p` names reads as before. -/
def KeepsRegsBut (p : Reg → Prop) (s t : State) : Prop := ∀ r, ¬ p r → t.getV r = s.getV r

/-- `SP` and all sixteen stack entries are as before. -/
def KeepsStack (s t : State) : Prop := t.sp = s.sp ∧ t.stack = s.stack

/-- Both timers are as before. -/
def KeepsTimers (s t : State) : Prop := t.dt = s.dt ∧ t.st = s.st

/-- Every byte of memory reads as before. -/
def KeepsMem (s t : State) : Prop := ∀ a, t.memRead a = s.memRead a

/-- Every byte of memory outside the `k` bytes from `addr` upward, each address reduced on its own, reads as before. -/
def KeepsMemOutside (addr k : Nat) (s t : State) : Prop :=
  ∀ a, (∀ j < k, a % 4096 ≠ (addr + j) % 4096) → t.memRead a = s.memRead a

/-- The quirk setting and the model's own fields (queue, counter, what was given to the host, load window) are as before. -/
def KeepsModel (s t : State) : Prop :=
  t.quirks = s.quirks ∧ t.events = s.events ∧ t.stepNo = s.stepNo ∧ t.out = s.out ∧ t.loadable = s.loadable

/-- Nothing but the general registers and `pc` may differ. -/
def OnlyRegsPc (s t : State) : Prop :=
  t.i = s.i ∧ KeepsStack s t ∧ KeepsTimers s t ∧ KeepsMem s t ∧ t.display = s.display ∧ t.fault = s.fault ∧ KeepsModel s t

/-- Nothing but `pc` may differ. -/
def OnlyPc (s t : State) : Prop := KeepsRegs s t ∧ OnlyRegsPc s t

/-- `pc` moved on by `k`, mod 65536 (R74). -/
def PcPlus (k : Nat) (s t : State) : Prop := t.pc.toNat = (s.pc.toNat + k) % 65536

/-- The word is the opcode of the instruction (R76). -/
def Encoded (word : Nat) (ins : Instr) : Prop := decodeWord (BitVec.ofNat 16 word) = .ok ins

/-- A condition as the byte a flag holds (R21). -/
def FlagIs (b : Byte) (c : Prop) : Prop := (c → b = 1) ∧ (¬ c → b = 0)

/-- The row `r` and column `c` of the `n`-row sprite at `I`, drawn at (`Vx`, `Vy`), hold a set bit that lands on the pixel (`cx`, `cy`) (R165). -/
def SpriteOn (s : State) (x y : Reg) (n cx cy : Nat) : Prop :=
  ∃ r < n, ∃ c < 8, (s.memRead (s.i.toNat + r)).getLsbD (7 - c) = true ∧
    cx = ((s.getV x).toNat + c) % 64 ∧ cy = ((s.getV y).toNat + r) % 32

/-- A word that matches no row of the opcode map, family by family, as a number (R77). -/
def IllegalWord (w : Nat) : Prop :=
  (w / 4096 = 0x0 ∧ w ≠ 0x00E0 ∧ w ≠ 0x00EE) ∨
  (w / 4096 = 0x5 ∧ w % 16 ≠ 0) ∨
  (w / 4096 = 0x8 ∧ w % 16 ∈ [8, 9, 0xA, 0xB, 0xC, 0xD, 0xF]) ∨
  (w / 4096 = 0x9 ∧ w % 16 ≠ 0) ∨
  (w / 4096 = 0xE ∧ w % 256 ∉ [0x9E, 0xA1]) ∨
  (w / 4096 = 0xF ∧ w % 256 ∉ [0x07, 0x0A, 0x15, 0x18, 0x1E, 0x29, 0x33, 0x55, 0x65])

/-- What a `Step` event adds around the engine: the event is taken, the step counted, the load window closed (logs 2, 3, 19). -/
def Booked (s t : State) : State := { t with events := s.events.tail, stepNo := s.stepNo + 1, loadable := false }

/-- The cause with which a `Step` in this state faults (R200): only while no fault is recorded, and by the word at `pc` and the depth of the stack. -/
def FaultsWith (s : State) (c : FaultCause) : Prop :=
  s.fault.cause = .none ∧
    ((c = .unknownOpcode ∧ IllegalWord s.fetchWord.toNat) ∨
      (c = .stackOverflow ∧ s.fetchWord.toNat / 4096 = 0x2 ∧ s.sp.val = 16) ∨
      (c = .stackUnderflow ∧ s.fetchWord.toNat = 0x00EE ∧ s.sp.val = 0))

/-- Where `pc` is after an instruction, one row per kind (R23). -/
def PcRule (s t : State) : Instr → Prop
  | .jp nnn => t.pc.toNat = nnn.toNat
  | .call nnn => (s.sp.val < 16 → t.pc.toNat = nnn.toNat) ∧ (s.sp.val = 16 → t.pc = s.pc)
  | .ret => (∀ h : 0 < s.sp.val, t.pc = s.stack[s.sp.val - 1]) ∧ (s.sp.val = 0 → t.pc = s.pc)
  | .jpV0 nnn => t.pc.toNat = nnn.toNat + (s.getV 0).toNat
  | .seImm x kk => PcPlus (if s.getV x = kk then 4 else 2) s t
  | .sneImm x kk => PcPlus (if s.getV x = kk then 2 else 4) s t
  | .seReg x y => PcPlus (if s.getV x = s.getV y then 4 else 2) s t
  | .sneReg x y => PcPlus (if s.getV x = s.getV y then 2 else 4) s t
  | .skp x => ((∃ k ∈ s.input.keysHeld, k.val = (s.getV x).toNat) → PcPlus 4 s t) ∧
      ((¬ ∃ k ∈ s.input.keysHeld, k.val = (s.getV x).toNat) → PcPlus 2 s t)
  | .sknp x => ((∃ k ∈ s.input.keysHeld, k.val = (s.getV x).toNat) → PcPlus 2 s t) ∧
      ((¬ ∃ k ∈ s.input.keysHeld, k.val = (s.getV x).toNat) → PcPlus 4 s t)
  | .ldVxK _ => (s.input.keydown = none → t.pc = s.pc) ∧ (s.input.keydown ≠ none → PcPlus 2 s t)
  | _ => PcPlus 2 s t

/-- What every step keeps: the memory in canonical form, the fault latch true of the halted state, and the load window closed while halted. -/
def State.Inv (s : State) : Prop := s.MemOk ∧ s.LatchOk ∧ s.WindowOk

end Sys2Proof.Machine

open Sys2Proof Sys2Proof.Machine

/-! ## Decoding and encoding -/

/-- R76: words written out from the patterns of the opcode map decode to the instructions they stand for, and words of R77 do not decode. -/
def Obligations.SpecWordsDecode : Prop :=
  Encoded 0x00E0 .cls ∧ Encoded 0x00EE .ret ∧ Encoded 0x1ABC (.jp 0xABC) ∧ Encoded 0x3342 (.seImm 3 0x42) ∧
  Encoded 0x8F24 (.addReg 15 2) ∧ Encoded 0x812E (.shl 1 2) ∧ Encoded 0xBFFF (.jpV0 0xFFF) ∧
  Encoded 0xD015 (.drw 0 1 5) ∧ Encoded 0xE2A1 (.sknp 2) ∧ Encoded 0xFF65 (.ldRegs 15) ∧
  decodeWord 0x5FFF = .error (.unknownOpcode 0x5FFF) ∧ decodeWord 0x0000 = .error (.unknownOpcode 0x0000)

/-- R71 to R76: decoding the opcode of a well-formed instruction gives it back, every operand at every value. -/
def Obligations.DecodeOfEncode : Prop :=
  ∀ ins : Instr, ins.wellFormed = true →
    decodeWord (encode ins) = .ok ins ∧ ∀ rest, decode (opBytes (encode ins) ++ rest) = .ok (ins, rest)

/-- R75: what decodes is well formed, and its opcode is the word decoded: no bit of a legal word is dropped. -/
def Obligations.EncodeOfDecode : Prop :=
  ∀ (op : Word) (ins : Instr), decodeWord op = .ok ins → ins.wellFormed = true ∧ encode ins = op

/-- R75: the dispatch and the opcode map agree on every word; a word either matches exactly one row, the one of the instruction it decodes to, or is UnknownOpcode (the strictness is D8; log 17). -/
def Obligations.DispatchAgreesWithOpcodeMap : Prop :=
  ∀ op : Word,
    (∃ ins, decodeWord op = .ok ins ∧
      ∃ row, opcodeMap.filter (fun r => op &&& r.mask = r.pattern) = [row] ∧ row.mnemonic = ins.mnemonic) ∨
    (decodeWord op = .error (.unknownOpcode op) ∧ opcodeMap.filter (fun r => op &&& r.mask = r.pattern) = [])

/-- R77: the words that do not decode are exactly those of its table, family by family, and each is reported with itself (D8, the spec's own strict reading; log 17). -/
def Obligations.IllegalWordsExactly : Prop :=
  ∀ op : Word, decodeWord op = .error (.unknownOpcode op) ↔ IllegalWord op.toNat

/-! ## The instruction cycle -/

/-- R74: a `Step` of an engine that is not halted runs the instruction that the two bytes at `pc` decode to, big-endian, with the inputs the event names; around it only the model's bookkeeping (logs 2, 3, 19) moves on. -/
def Obligations.StepRunsDecodedInstruction : Prop :=
  ∀ (s t : State) (inp : StepInput) (ins : Instr), s.nextEvent = .step inp → s.fault.cause = .none →
    decode [s.memRead s.pc.toNat, s.memRead (s.pc.toNat + 1)] = .ok (ins, []) → exec ins s = .next t →
    s.input = inp ∧
      step s = .next { t with events := t.events.tail, stepNo := t.stepNo + 1, loadable := false }

/-- R52: the opcode is the two bytes at `pc` and `pc + 1`, the high byte first, each address reduced mod 4096 on its own; at the last byte of memory the low byte comes from address 0. -/
def Obligations.FetchIsBigEndian : Prop :=
  ∀ s : State,
    s.fetchWord.toNat = (s.memRead (s.pc.toNat % 4096)).toNat * 256 + (s.memRead ((s.pc.toNat + 1) % 4096)).toNat ∧
    (s.pc.toNat % 4096 = 4095 →
      s.fetchWord.toNat = (s.memRead 4095).toNat * 256 + (s.memRead 0).toNat)

/-- R200, R205, R206: a `Step` never stops the model; it faults exactly where one of the three conditions holds, then writes that cause and the word at `pc` into `FAULT` and changes nothing else of the block, and otherwise leaves `FAULT` as it was (D9, the spec's own: the numeric record, the halt; logs 1, 18). -/
def Obligations.FaultsArePrecise : Prop :=
  ∀ (s : State) (inp : StepInput), s.nextEvent = .step inp →
    ∃ t, step s = .next t ∧
      (∀ c, FaultsWith s c → t = Booked s { s with fault := ⟨c, s.fetchWord⟩ }) ∧
      ((∀ c, ¬ FaultsWith s c) → t.fault = s.fault)

/-- R201: a `Step` that is not halted faults with UnknownOpcode and the word fetched exactly on the words of R77, whatever the rest of the state, and executes nothing of them: no silent no-op (D8, D9; logs 1, 17). -/
def Obligations.UnknownOpcodeFaults : Prop :=
  ∀ (s : State) (inp : StepInput), s.nextEvent = .step inp → s.fault.cause = .none →
    (IllegalWord s.fetchWord.toNat → step s = .next (Booked s { s with fault := ⟨.unknownOpcode, s.fetchWord⟩ })) ∧
    (¬ IllegalWord s.fetchWord.toNat → ∃ t, step s = .next t ∧ t.fault.cause ≠ .unknownOpcode)

/-- R207: while a fault is recorded a `Step` changes nothing of the block, a `Tick` still counts the timers down, and the host's operations still work (D9, D16: the spec's own choice to halt; logs 18, 27). -/
def Obligations.HaltedEngineExecutesNothing : Prop :=
  ∀ s : State, s.fault.cause ≠ .none →
    (∀ inp, s.nextEvent = .step inp → step s = .next (Booked s s)) ∧
    (s.nextEvent = .tick → ∃ t, step s = .next t ∧ t.dt.toNat = s.dt.toNat - 1 ∧ t.st.toNat = s.st.toNat - 1 ∧
      t.fault = s.fault ∧ t.pc = s.pc) ∧
    (s.nextEvent ∈ [.reset, .takeDirty, .readGrid, .dump, .readFault] → ∃ t, step s = .next t)

/-- R208: in a halted state no event but `Reset` changes `FAULT`, so nothing else leaves the halt and faults do not nest; and `Reset` clears the cause (D9; log 18). -/
def Obligations.OnlyResetLeavesHalt : Prop :=
  (∀ s t : State, s.fault.cause ≠ .none → step s = .next t → t.fault = s.fault ∨ s.nextEvent = .reset) ∧
  (∀ s : State, s.nextEvent = .reset → ∃ t, step s = .next t ∧ t.fault.cause = .none)

/-! ## Whole-machine invariants -/

/-- The invariant holds right after the power-on reset. -/
def Obligations.InvariantAtReset : Prop := State.reset.Inv

/-- R206 and the memory's form: from every state that meets the invariant, every event leads to one that meets it. -/
def Obligations.StepKeepsInvariant : Prop := ∀ s t : State, s.Inv → step s = .next t → t.Inv

/-- R31: no event changes the quirk setting. -/
def Obligations.QuirksNeverChange : Prop := ∀ s t : State, step s = .next t → t.quirks = s.quirks

/-- The only steps that stop are `load_program` outside its window (a fault) and with an image over 3584 bytes (a refusal) (R63, U4; log 19: the model's choice). -/
def Obligations.OnlyBadLoadsStop : Prop :=
  ∀ s : State, (∃ t, step s = .next t) ∨
    (∃ image, s.nextEvent = .loadProgram image ∧ s.loadable = false ∧ step s = .fault .loadOutsideWindow) ∨
    (∃ image, s.nextEvent = .loadProgram image ∧ s.loadable = true ∧ 3584 < image.length ∧
      step s = .refused .imageTooLong)

/-- 10_state section 1: each unit is written by its own instructions and no other (that a fault changes only `FAULT` is D9; log 18). -/
def Obligations.UnitsHaveOwners : Prop :=
  ∀ (ins : Instr) (s t : State), exec ins s = .next t →
    (¬ KeepsStack s t → ins = .ret ∨ ∃ nnn, ins = .call nnn) ∧
    (t.display ≠ s.display → ins = .cls ∨ ∃ x y n, ins = .drw x y n) ∧
    (t.dt ≠ s.dt → ∃ x, ins = .ldDtVx x) ∧
    (t.st ≠ s.st → ∃ x, ins = .ldStVx x) ∧
    (¬ KeepsMem s t → ∃ x, ins = .ldB x ∨ ins = .stRegs x) ∧
    (t.i ≠ s.i → (∃ nnn, ins = .ldI nnn) ∨ ∃ x, ins = .addI x ∨ ins = .ldF x ∨
      s.quirks.memInc = true ∧ (ins = .stRegs x ∨ ins = .ldRegs x)) ∧
    (t.fault ≠ s.fault → ins = .ret ∧ s.sp.val = 0 ∨ (∃ nnn, ins = .call nnn) ∧ s.sp.val = 16) ∧
    KeepsModel s t

/-- R21: the instructions that may change `VF` are the six that write it as a flag, and those that name it as their destination. -/
def Obligations.VfWritersExactly : Prop :=
  ∀ (ins : Instr) (s t : State), exec ins s = .next t → t.getV Reg.vf ≠ s.getV Reg.vf →
    (∃ x y, ins = .addReg x y ∨ ins = .sub x y ∨ ins = .shr x y ∨ ins = .subn x y ∨ ins = .shl x y ∨
      ∃ n, ins = .drw x y n) ∨
    (∃ kk, ins = .ldImm Reg.vf kk ∨ ins = .addImm Reg.vf kk ∨ ins = .rnd Reg.vf kk) ∨
    (∃ y, ins = .ldReg Reg.vf y ∨ ins = .or Reg.vf y ∨ ins = .and Reg.vf y ∨ ins = .xor Reg.vf y) ∨
    ins = .ldVxDt Reg.vf ∨ ins = .ldVxK Reg.vf ∨ ins = .ldRegs Reg.vf

/-- R23: where `pc` is after every instruction: the target, the popped entry, `npc + 2` for a skip that is taken, `pc0` after a stall or a fault, `npc` after all others (D5, D6; log 12). -/
def Obligations.PcAfterInstruction : Prop := ∀ (ins : Instr) (s t : State), exec ins s = .next t → PcRule s t ins

/-- R8: only Ex9E and ExA1 read `keys_held`, only Fx0A reads `keydown`, only Cxkk reads `rand`: an instruction run with two inputs that agree on what it reads does the same. -/
def Obligations.InputsReadOnlyWhereNamed : Prop :=
  ∀ (ins : Instr) (s : State) (a b : StepInput) (es : List Event),
    (∀ x, ins = .skp x ∨ ins = .sknp x → ∀ k, k ∈ a.keysHeld ↔ k ∈ b.keysHeld) →
    (∀ x, ins = .ldVxK x → a.keydown = b.keydown) →
    (∀ x kk, ins = .rnd x kk → a.rand = b.rand) →
    ∃ t u, exec ins { s with events := .step a :: es } = .next t ∧ exec ins { s with events := .step b :: es } = .next u ∧
      u = { t with events := u.events }

/-- R29: `DIRTY` changes the result of no instruction. -/
def Obligations.DirtyChangesNoResult : Prop :=
  ∀ (ins : Instr) (s : State) (d : Bool), ∃ t u,
    exec ins s = .next t ∧ exec ins { s with display := { s.display with dirty := d } } = .next u ∧
      u = { t with display := { t.display with dirty := u.display.dirty } }

/-- R24: no instruction reads a stack entry at or above `SP`: states that agree on the entries in use answer states that agree on everything but the entries not in use. -/
def Obligations.StaleStackEntriesUnread : Prop :=
  ∀ (ins : Instr) (s : State) (w : Vector Word 16), (∀ k : Fin 16, k.val < s.sp.val → w[k.val] = s.stack[k.val]) →
    ∃ t u, exec ins s = .next t ∧ exec ins { s with stack := w } = .next u ∧ u = { t with stack := u.stack } ∧
      ∀ k : Fin 16, k.val < t.sp.val → u.stack[k.val] = t.stack[k.val]

/-- R237: a timer never increases except by Fx15 or Fx18, and a timer at 0 stays 0. -/
def Obligations.TimersOnlyRiseByTheirInstruction : Prop :=
  ∀ s t : State, step s = .next t →
    (t.dt.toNat ≤ s.dt.toNat ∨ ∃ x inp, s.nextEvent = .step inp ∧ decodeWord s.fetchWord = .ok (.ldDtVx x)) ∧
    (t.st.toNat ≤ s.st.toNat ∨ ∃ x inp, s.nextEvent = .step inp ∧ decodeWord s.fetchWord = .ok (.ldStVx x))

/-! ## Reset, ticks, host operations -/

/-- R34: the value of every piece of state after the power-on reset, and after a later `Reset` in any state (I = 0 and the memory kept: D17; log 22; the font bytes are general knowledge: D4; log 7). -/
def Obligations.ResetLeavesSpecValues : Prop :=
  ((∀ r, State.reset.getV r = 0) ∧ State.reset.i = 0 ∧ State.reset.pc.toNat = 0x200 ∧ State.reset.sp.val = 0 ∧
    State.reset.dt = 0 ∧ State.reset.st = 0 ∧ (∀ k (h : k < 80), State.reset.memRead k = fontBytes[k]'h) ∧
    (∀ a, 80 ≤ a → a < 4096 → State.reset.memRead a = 0) ∧
    (∀ cx cy, State.reset.display.fb.pixel cx cy = false) ∧ State.reset.display.dirty = true ∧
    State.reset.fault.cause = .none) ∧
  (∀ s : State, s.MemOk → s.nextEvent = .reset → ∃ t, step s = .next t ∧
    (∀ r, t.getV r = 0) ∧ t.i = 0 ∧ t.pc.toNat = 0x200 ∧ t.sp.val = 0 ∧ t.dt = 0 ∧ t.st = 0 ∧
    (∀ k (h : k < 80), t.memRead k = fontBytes[k]'h) ∧ (∀ a, 80 ≤ a → a < 4096 → t.memRead a = s.memRead a) ∧
    (∀ cx cy, t.display.fb.pixel cx cy = false) ∧ t.display.dirty = true ∧ t.fault.cause = .none ∧
    t.quirks = s.quirks ∧ t.stack = s.stack ∧ t.out = s.out)

/-- R210: `Tick` takes 1 from each timer above 0 and touches nothing else; R211: it emits one tone exactly where `ST` was above 0 before (in a halted state too: D16; log 27). -/
def Obligations.TickCountsDown : Prop :=
  ∀ s : State, s.nextEvent = .tick → ∃ t, step s = .next t ∧
    t.dt.toNat = s.dt.toNat - 1 ∧ t.st.toNat = s.st.toNat - 1 ∧
    t.out = (if 0 < s.st.toNat then s.out ++ [.tone] else s.out) ∧
    KeepsRegs s t ∧ t.i = s.i ∧ t.pc = s.pc ∧ KeepsStack s t ∧ KeepsMem s t ∧ t.display = s.display ∧ t.fault = s.fault ∧
    t.quirks = s.quirks

/-- R211: over `n` ticks in a row exactly `min n ST` tone events are emitted, one on each tick that finds `ST` above 0, and both timers stop at 0; no instruction emits anything (D29; log 27). -/
def Obligations.TonesOverTicks : Prop :=
  (∀ (n : Nat) (s : State) (es : List Event), s.events = List.replicate n .tick ++ es →
    ∃ t, Host.Core.run Sys2Proof.core n s = .next t ∧ t.dt.toNat = s.dt.toNat - n ∧ t.st.toNat = s.st.toNat - n ∧
      t.out = s.out ++ List.replicate (min n s.st.toNat) .tone ∧ t.events = es) ∧
  (∀ (ins : Instr) (s t : State), exec ins s = .next t → t.out = s.out)

/-- R163: `take_dirty` answers the dirty flag and clears it; the grid and everything else stay (that the host calls it: D21; log 34). -/
def Obligations.TakeDirtyAnswersAndClears : Prop :=
  ∀ s : State, s.nextEvent = .takeDirty → ∃ t, step s = .next t ∧
    t.display.dirty = false ∧ t.out = s.out ++ [.dirty s.display.dirty] ∧ t.display.fb = s.display.fb ∧
    t = { s with display := t.display, out := t.out, events := s.events.tail }

/-- R166, R63: reading the grid, `dump` and reading the fault record give the host what is there and change nothing; the dump's byte `k` is the byte at address `k`. -/
def Obligations.HostReadsChangeNothing : Prop :=
  ∀ s : State,
    (s.nextEvent = .readGrid → step s = .next { s with events := s.events.tail, out := s.out ++ [.grid s.display.fb] }) ∧
    (s.nextEvent = .readFault → step s = .next { s with events := s.events.tail, out := s.out ++ [.faultRecord s.fault] }) ∧
    (s.nextEvent = .dump → ∃ bytes, step s = .next { s with events := s.events.tail, out := s.out ++ [.memory bytes] } ∧
      bytes.length = 4096 ∧ ∀ k (h : k < bytes.length), bytes[k] = s.memRead k)

/-- R63: `load_program` copies the image from 0x200 upward and writes nothing else; log 19 (the model's choice): it stops outside its window and on an image over 3584 bytes. -/
def Obligations.LoadProgramCopiesImage : Prop :=
  ∀ (s : State) (image : List Byte), s.nextEvent = .loadProgram image →
    (s.MemOk → s.loadable = true → image.length ≤ 3584 → ∃ t, step s = .next t ∧
      (∀ k (h : k < image.length), t.memRead (0x200 + k) = image[k]) ∧ KeepsMemOutside 0x200 image.length s t ∧
      t = { s with mem := t.mem, events := s.events.tail, loadable := false }) ∧
    (s.loadable = false → step s = .fault .loadOutsideWindow) ∧
    (s.loadable = true → 3584 < image.length → step s = .refused .imageTooLong)

/-- R233: where a run has ended, a `Step` changes nothing (but the model's bookkeeping) (the definition is D31; log 30). -/
def Obligations.EndedRunStays : Prop :=
  ∀ (s : State) (inp : StepInput), s.RunEnded → s.nextEvent = .step inp →
    step s = .next { s with events := s.events.tail, stepNo := s.stepNo + 1, loadable := false }

/-- The host's `withFetchWord` (log 21): the very next step runs the instruction of the word placed. -/
def Obligations.PlacedWordRunsNext : Prop :=
  ∀ (s t : State) (w : Nat) (ins : Instr), s.MemOk → decodeTableWord 16 w = some ins →
    exec ins (s.withFetchWord 16 w) = .next t →
    step (s.withFetchWord 16 w) = .next { t with events := t.events.tail, stepNo := t.stepNo + 1, loadable := false }

/-! ## Control transfer -/

/-- R100: RET: the newest entry goes to `pc` as it is and is not erased; an empty stack raises StackUnderflow, and then nothing but `FAULT` changes (that clause is D9 by R206, the spec's own decision, and as a next state the model's choice; logs 1, 18). -/
def Obligations.ReturnPops : Prop :=
  Encoded 0x00EE .ret ∧
  (∀ (s : State) (h : 0 < s.sp.val), ∃ t, exec .ret s = .next t ∧ t.pc = s.stack[s.sp.val - 1] ∧
    t.sp.val = s.sp.val - 1 ∧ t.stack = s.stack ∧ KeepsRegs s t ∧ t.i = s.i ∧ KeepsTimers s t ∧ KeepsMem s t ∧
    t.display = s.display ∧ t.fault = s.fault ∧ KeepsModel s t) ∧
  (∀ s : State, s.sp.val = 0 → ∃ t, exec .ret s = .next t ∧ t.fault.cause = .stackUnderflow ∧ t = { s with fault := t.fault })

/-- R101: JP nnn. -/
def Obligations.JumpSetsPc : Prop :=
  ∀ (nnn : Addr12) (s : State), Encoded (0x1000 + nnn.toNat) (.jp nnn) ∧
    ∃ t, exec (.jp nnn) s = .next t ∧ t.pc.toNat = nnn.toNat ∧ OnlyPc s t

/-- R102: CALL nnn: `npc` is pushed (D6, the spec's own convention; log 12) and `pc` is `nnn`; a full stack raises StackOverflow, records the word (D9; log 18) and changes nothing else. -/
def Obligations.CallPushes : Prop :=
  ∀ (nnn : Addr12) (s : State), Encoded (0x2000 + nnn.toNat) (.call nnn) ∧
    (s.sp.val < 16 → ∃ t, exec (.call nnn) s = .next t ∧ t.pc.toNat = nnn.toNat ∧ t.sp.val = s.sp.val + 1 ∧
      (∀ k : Fin 16, (t.stack[k.val]).toNat = if k.val = s.sp.val then (s.pc.toNat + 2) % 65536 else (s.stack[k.val]).toNat) ∧
      KeepsRegs s t ∧ t.i = s.i ∧ KeepsTimers s t ∧ KeepsMem s t ∧ t.display = s.display ∧ t.fault = s.fault ∧
      KeepsModel s t) ∧
    (s.sp.val = 16 → exec (.call nnn) s =
      .next { s with fault := ⟨.stackOverflow, BitVec.ofNat 16 (0x2000 + nnn.toNat)⟩ })

/-- R100, R102: a CALL followed at once by a RET leaves `pc` at the instruction after the CALL and the stack in use as it was, at every depth from 0 to 15 (D6; log 12). -/
def Obligations.CallThenReturn : Prop :=
  ∀ (nnn : Addr12) (s : State), s.sp.val < 16 → ∃ t u, exec (.call nnn) s = .next t ∧ exec .ret t = .next u ∧
    PcPlus 2 s u ∧ u.sp = s.sp ∧ (∀ k : Fin 16, k.val < s.sp.val → u.stack[k.val] = s.stack[k.val]) ∧
    u = { s with pc := u.pc, stack := u.stack }

/-- R103, R104: SE Vx, kk and SNE Vx, kk. -/
def Obligations.SkipsOnImmediate : Prop :=
  ∀ (x : Reg) (kk : Byte) (s : State),
    Encoded (0x3000 + x.val * 256 + kk.toNat) (.seImm x kk) ∧ Encoded (0x4000 + x.val * 256 + kk.toNat) (.sneImm x kk) ∧
    (∃ t, exec (.seImm x kk) s = .next t ∧ PcPlus (if s.getV x = kk then 4 else 2) s t ∧ OnlyPc s t) ∧
    (∃ t, exec (.sneImm x kk) s = .next t ∧ PcPlus (if s.getV x = kk then 2 else 4) s t ∧ OnlyPc s t)

/-- R105, R106: SE Vx, Vy and SNE Vx, Vy; any low nibble but 0 does not decode (D8, the spec's own strict reading; log 17). -/
def Obligations.SkipsOnRegister : Prop :=
  ∀ (x y : Reg) (s : State),
    Encoded (0x5000 + x.val * 256 + y.val * 16) (.seReg x y) ∧ Encoded (0x9000 + x.val * 256 + y.val * 16) (.sneReg x y) ∧
    (∃ t, exec (.seReg x y) s = .next t ∧ PcPlus (if s.getV x = s.getV y then 4 else 2) s t ∧ OnlyPc s t) ∧
    (∃ t, exec (.sneReg x y) s = .next t ∧ PcPlus (if s.getV x = s.getV y then 2 else 4) s t ∧ OnlyPc s t) ∧
    (∀ n : Nat, 0 < n → n < 16 → ∀ ins, ¬ Encoded (0x5000 + x.val * 256 + y.val * 16 + n) ins ∧
      ¬ Encoded (0x9000 + x.val * 256 + y.val * 16 + n) ins)

/-- R107: JP V0, nnn: the sum is not reduced to 12 bits. -/
def Obligations.IndexedJump : Prop :=
  ∀ (nnn : Addr12) (s : State), Encoded (0xB000 + nnn.toNat) (.jpV0 nnn) ∧
    ∃ t, exec (.jpV0 nnn) s = .next t ∧ t.pc.toNat = nnn.toNat + (s.getV 0).toNat ∧ OnlyPc s t

/-! ## Register instructions -/

/-- R120, R121: LD Vx, kk and ADD Vx, kk; no flag. -/
def Obligations.ImmediateLoadAndAdd : Prop :=
  ∀ (x : Reg) (kk : Byte) (s : State),
    Encoded (0x6000 + x.val * 256 + kk.toNat) (.ldImm x kk) ∧ Encoded (0x7000 + x.val * 256 + kk.toNat) (.addImm x kk) ∧
    (∃ t, exec (.ldImm x kk) s = .next t ∧ t.getV x = kk ∧ PcPlus 2 s t ∧ KeepsRegsBut (· = x) s t ∧ OnlyRegsPc s t) ∧
    (∃ t, exec (.addImm x kk) s = .next t ∧ (t.getV x).toNat = ((s.getV x).toNat + kk.toNat) % 256 ∧ PcPlus 2 s t ∧
      KeepsRegsBut (· = x) s t ∧ OnlyRegsPc s t)

/-- R122: LD Vx, Vy; `Vy` is unchanged. -/
def Obligations.CopyRegister : Prop :=
  ∀ (x y : Reg) (s : State), Encoded (0x8000 + x.val * 256 + y.val * 16) (.ldReg x y) ∧
    ∃ t, exec (.ldReg x y) s = .next t ∧ t.getV x = s.getV y ∧ t.getV y = s.getV y ∧ PcPlus 2 s t ∧
      KeepsRegsBut (· = x) s t ∧ OnlyRegsPc s t

/-- R123, R124, R125: OR, AND, XOR act on all 8 bits independently and write no flag. -/
def Obligations.LogicBitwise : Prop :=
  ∀ (x y : Reg) (s : State),
    Encoded (0x8001 + x.val * 256 + y.val * 16) (.or x y) ∧ Encoded (0x8002 + x.val * 256 + y.val * 16) (.and x y) ∧
    Encoded (0x8003 + x.val * 256 + y.val * 16) (.xor x y) ∧
    (∃ t, exec (.or x y) s = .next t ∧ (∀ k < 8, (t.getV x).getLsbD k = ((s.getV x).getLsbD k || (s.getV y).getLsbD k)) ∧
      PcPlus 2 s t ∧ KeepsRegsBut (· = x) s t ∧ OnlyRegsPc s t) ∧
    (∃ t, exec (.and x y) s = .next t ∧ (∀ k < 8, (t.getV x).getLsbD k = ((s.getV x).getLsbD k && (s.getV y).getLsbD k)) ∧
      PcPlus 2 s t ∧ KeepsRegsBut (· = x) s t ∧ OnlyRegsPc s t) ∧
    (∃ t, exec (.xor x y) s = .next t ∧ (∀ k < 8, (t.getV x).getLsbD k = ((s.getV x).getLsbD k ^^ (s.getV y).getLsbD k)) ∧
      PcPlus 2 s t ∧ KeepsRegsBut (· = x) s t ∧ OnlyRegsPc s t)

/-- R126, R133: ADD Vx, Vy: the sum mod 256 in `Vx`, the carry in `VF`; where `x` is F the sum stays (D10, the spec's own decision; log 13). -/
def Obligations.AddCarries : Prop :=
  ∀ (x y : Reg) (s : State), Encoded (0x8004 + x.val * 256 + y.val * 16) (.addReg x y) ∧
    ∃ t, exec (.addReg x y) s = .next t ∧ (t.getV x).toNat = ((s.getV x).toNat + (s.getV y).toNat) % 256 ∧
      (x ≠ Reg.vf → FlagIs (t.getV Reg.vf) (255 < (s.getV x).toNat + (s.getV y).toNat)) ∧ PcPlus 2 s t ∧
      KeepsRegsBut (fun r => r = x ∨ r = Reg.vf) s t ∧ OnlyRegsPc s t

/-- R127, R129, R133: SUB and SUBN: the difference mod 256 in `Vx`, the strict comparison in `VF`; where `x` is F the difference stays (D10, the spec's own decision; log 13). -/
def Obligations.SubtractCompares : Prop :=
  ∀ (x y : Reg) (s : State),
    Encoded (0x8005 + x.val * 256 + y.val * 16) (.sub x y) ∧ Encoded (0x8007 + x.val * 256 + y.val * 16) (.subn x y) ∧
    (∃ t, exec (.sub x y) s = .next t ∧
      (t.getV x).toNat = (if (s.getV y).toNat ≤ (s.getV x).toNat then (s.getV x).toNat - (s.getV y).toNat
        else (s.getV x).toNat + 256 - (s.getV y).toNat) ∧
      (x ≠ Reg.vf → FlagIs (t.getV Reg.vf) ((s.getV y).toNat < (s.getV x).toNat)) ∧ PcPlus 2 s t ∧
      KeepsRegsBut (fun r => r = x ∨ r = Reg.vf) s t ∧ OnlyRegsPc s t) ∧
    (∃ t, exec (.subn x y) s = .next t ∧
      (t.getV x).toNat = (if (s.getV x).toNat ≤ (s.getV y).toNat then (s.getV y).toNat - (s.getV x).toNat
        else (s.getV y).toNat + 256 - (s.getV x).toNat) ∧
      (x ≠ Reg.vf → FlagIs (t.getV Reg.vf) ((s.getV x).toNat < (s.getV y).toNat)) ∧ PcPlus 2 s t ∧
      KeepsRegsBut (fun r => r = x ∨ r = Reg.vf) s t ∧ OnlyRegsPc s t)

/-- R128, R133: SHR shifts the source that `Q_SHIFT` names right by one bit; `VF` is the bit shifted out, and where `x` is F the flag stays (D10, the spec's own decision; log 13). -/
def Obligations.ShiftRightByOne : Prop :=
  ∀ (x y : Reg) (s : State) (a : Nat), a = (if s.quirks.shift then s.getV y else s.getV x).toNat →
    Encoded (0x8006 + x.val * 256 + y.val * 16) (.shr x y) ∧
    ∃ t, exec (.shr x y) s = .next t ∧ (x ≠ Reg.vf → (t.getV x).toNat = a / 2) ∧
      (t.getV Reg.vf).toNat = a % 2 ∧ PcPlus 2 s t ∧ KeepsRegsBut (fun r => r = x ∨ r = Reg.vf) s t ∧ OnlyRegsPc s t

/-- R130, R133: SHL shifts the source that `Q_SHIFT` names left by one bit; `VF` is the bit shifted out as 0 or 1 (D11, the spec's own reading; log 14), and where `x` is F the flag stays (D10; log 13). -/
def Obligations.ShiftLeftByOne : Prop :=
  ∀ (x y : Reg) (s : State) (a : Nat), a = (if s.quirks.shift then s.getV y else s.getV x).toNat →
    Encoded (0x800E + x.val * 256 + y.val * 16) (.shl x y) ∧
    ∃ t, exec (.shl x y) s = .next t ∧ (x ≠ Reg.vf → (t.getV x).toNat = a * 2 % 256) ∧
      (t.getV Reg.vf).toNat = a / 128 ∧ PcPlus 2 s t ∧ KeepsRegsBut (fun r => r = x ∨ r = Reg.vf) s t ∧ OnlyRegsPc s t

/-- R131: RND Vx, kk: the step's random byte masked by `kk`; no flag. -/
def Obligations.RandomMasked : Prop :=
  ∀ (x : Reg) (kk : Byte) (s : State), Encoded (0xC000 + x.val * 256 + kk.toNat) (.rnd x kk) ∧
    ∃ t, exec (.rnd x kk) s = .next t ∧ (∀ k < 8, (t.getV x).getLsbD k = (s.input.rand.getLsbD k && kk.getLsbD k)) ∧
      PcPlus 2 s t ∧ KeepsRegsBut (· = x) s t ∧ OnlyRegsPc s t

/-! ## Address register and memory -/

/-- Nothing but `I` and `pc` may differ, and `pc` moved on by 2. -/
def Sys2Proof.Machine.OnlyIPc (s t : State) : Prop :=
  PcPlus 2 s t ∧ KeepsRegs s t ∧ KeepsStack s t ∧ KeepsTimers s t ∧ KeepsMem s t ∧ t.display = s.display ∧
    t.fault = s.fault ∧ KeepsModel s t

/-- R140, R141: LD I, nnn; ADD I, Vx mod 65536, with no flag. -/
def Obligations.LoadAndAddAddress : Prop :=
  ∀ (nnn : Addr12) (x : Reg) (s : State),
    Encoded (0xA000 + nnn.toNat) (.ldI nnn) ∧ Encoded (0xF01E + x.val * 256) (.addI x) ∧
    (∃ t, exec (.ldI nnn) s = .next t ∧ t.i.toNat = nnn.toNat ∧ OnlyIPc s t) ∧
    (∃ t, exec (.addI x) s = .next t ∧ t.i.toNat = (s.i.toNat + (s.getV x).toNat) % 65536 ∧ OnlyIPc s t)

/-- R142: LD F, Vx points `I` at the glyph; a value above 0xF is not masked (D18, the spec's own reading; log 16). The glyph of a digit, in a memory that still holds the font, is the five bytes there (its bytes are general knowledge: D4; log 7). -/
def Obligations.GlyphAddress : Prop :=
  ∀ (x : Reg) (s : State), Encoded (0xF029 + x.val * 256) (.ldF x) ∧
    ∃ t, exec (.ldF x) s = .next t ∧ t.i.toNat = (s.getV x).toNat * 5 ∧ OnlyIPc s t ∧
      (∀ (d : Nat) (hd : d < 16) (r : Nat) (hr : r < 5), (s.getV x).toNat = d →
        (∀ k (h : k < 80), s.memRead k = fontBytes[k]'h) → t.memRead (t.i.toNat + r) = fontBytes[d * 5 + r]'(by have h : fontBytes.length = 80 := rfl; omega))

/-- R143: LD B, Vx: hundreds, tens and ones at `I`, `I + 1`, `I + 2`; `I` is unchanged. The frame holds in every state, the bytes stored in every state with a memory in canonical form. -/
def Obligations.StoreDecimalDigits : Prop :=
  ∀ (x : Reg) (s : State), Encoded (0xF033 + x.val * 256) (.ldB x) ∧
    ∃ t, exec (.ldB x) s = .next t ∧
      (s.MemOk → (t.memRead s.i.toNat).toNat = (s.getV x).toNat / 100 ∧
        (t.memRead (s.i.toNat + 1)).toNat = (s.getV x).toNat / 10 % 10 ∧
        (t.memRead (s.i.toNat + 2)).toNat = (s.getV x).toNat % 10) ∧
      KeepsMemOutside s.i.toNat 3 s t ∧ t.i = s.i ∧ PcPlus 2 s t ∧ KeepsRegs s t ∧ KeepsStack s t ∧ KeepsTimers s t ∧
      t.display = s.display ∧ t.fault = s.fault ∧ KeepsModel s t

/-- R144: LD [I], Vx: `V0` to `Vx` at ascending addresses from `I`, each reduced on its own; with `Q_MEMINC` `I` moves on by `x + 1` mod 65536 (D19, the spec's own width of the wrap; log 28). -/
def Obligations.StoreRegisterBlock : Prop :=
  ∀ (x : Reg) (s : State), Encoded (0xF055 + x.val * 256) (.stRegs x) ∧
    ∃ t, exec (.stRegs x) s = .next t ∧
      (s.MemOk → ∀ r : Reg, r ≤ x → t.memRead (s.i.toNat + r.val) = s.getV r) ∧
      KeepsMemOutside s.i.toNat (x.val + 1) s t ∧
      t.i.toNat = (if s.quirks.memInc then (s.i.toNat + x.val + 1) % 65536 else s.i.toNat) ∧
      PcPlus 2 s t ∧ KeepsRegs s t ∧ KeepsStack s t ∧ KeepsTimers s t ∧ t.display = s.display ∧ t.fault = s.fault ∧
      KeepsModel s t

/-- R145: LD Vx, [I]: `V0` to `Vx` from ascending addresses from `I`; registers above `Vx` and all of memory are unchanged; `I` as for the store (D19; log 28). -/
def Obligations.LoadRegisterBlock : Prop :=
  ∀ (x : Reg) (s : State), Encoded (0xF065 + x.val * 256) (.ldRegs x) ∧
    ∃ t, exec (.ldRegs x) s = .next t ∧
      (∀ r : Reg, r ≤ x → t.getV r = s.memRead (s.i.toNat + r.val)) ∧ KeepsRegsBut (· ≤ x) s t ∧
      t.i.toNat = (if s.quirks.memInc then (s.i.toNat + x.val + 1) % 65536 else s.i.toNat) ∧
      PcPlus 2 s t ∧ KeepsStack s t ∧ KeepsTimers s t ∧ KeepsMem s t ∧ t.display = s.display ∧ t.fault = s.fault ∧
      KeepsModel s t

/-- R144, R145: with `I` set back to where the block lies, a load gives back the registers a store wrote, whatever the registers held in between. -/
def Obligations.StoreThenLoadRestores : Prop :=
  ∀ (x : Reg) (s : State) (w : Vector Byte 16), s.MemOk → ∃ t u, exec (.stRegs x) s = .next t ∧
    exec (.ldRegs x) { t with v := w, i := s.i } = .next u ∧
    (∀ r : Reg, r ≤ x → u.getV r = s.getV r) ∧ ∀ r : Reg, x < r → u.getV r = w[r.val]

/-- R60: a block stored where the next instruction lies is what the very next fetch reads (the spec marks it as derived; D26, log 35). -/
def Obligations.StoreSeenByNextFetch : Prop :=
  ∀ (x : Reg) (s : State), s.MemOk → 1 ≤ x.val → s.i.toNat % 4096 = (s.pc.toNat + 2) % 4096 →
    ∃ t, exec (.stRegs x) s = .next t ∧
      t.fetchWord.toNat = (s.getV 0).toNat * 256 + (s.getV 1).toNat

/-! ## Display -/

/-- R160, R161, R162: coordinates are reduced mod 64 and mod 32; `clear` turns every pixel off; `toggle_pixel` turns the one pixel named and reports whether it was on; both mark dirty (64 and 32 are general knowledge: D3; log 8). -/
def Obligations.FramebufferContract : Prop :=
  ∀ (d : Display) (px py : Nat),
    d.fb.pixel px py = d.fb.pixel (px % 64) (py % 32) ∧
    (d.clear.dirty = true ∧ ∀ cx cy, d.clear.fb.pixel cx cy = false) ∧
    ((d.togglePixel px py).2 = d.fb.pixel px py ∧ (d.togglePixel px py).1.dirty = true ∧
      ∀ cx cy, (d.togglePixel px py).1.fb.pixel cx cy =
        if cx % 64 = px % 64 ∧ cy % 32 = py % 32 then !d.fb.pixel px py else d.fb.pixel cx cy)

/-- R164: CLS. -/
def Obligations.ClearScreen : Prop :=
  Encoded 0x00E0 .cls ∧
  ∀ s : State, ∃ t, exec .cls s = .next t ∧ (∀ cx cy, t.display.fb.pixel cx cy = false) ∧ t.display.dirty = true ∧
    PcPlus 2 s t ∧ KeepsRegs s t ∧ t.i = s.i ∧ KeepsStack s t ∧ KeepsTimers s t ∧ KeepsMem s t ∧ t.fault = s.fault ∧
    KeepsModel s t

/-- R165: DRW Vx, Vy, n: each pixel becomes its exclusive or with the wrapped sprite; `VF` is 1 where a pixel that was on is turned off, else 0; `DIRTY` is set always; `I` and memory are unchanged (the size 64 by 32 and the order of bits and rows are general knowledge: D3, D20; logs 8, 9; a coordinate from `VF` is its old value: D10; log 13). -/
def Obligations.DrawXorsSprite : Prop :=
  ∀ (x y : Reg) (n : Nat) (s : State), (Instr.drw x y n).wellFormed = true →
    Encoded (0xD000 + x.val * 256 + y.val * 16 + n) (.drw x y n) ∧
    ∃ t, exec (.drw x y n) s = .next t ∧
      (∀ cx < 64, ∀ cy < 32, t.display.fb.pixel cx cy = true ↔ (s.display.fb.pixel cx cy = true ↔ ¬ SpriteOn s x y n cx cy)) ∧
      FlagIs (t.getV Reg.vf) (∃ cx cy, SpriteOn s x y n cx cy ∧ s.display.fb.pixel cx cy = true) ∧
      t.display.dirty = true ∧ PcPlus 2 s t ∧ KeepsRegsBut (· = Reg.vf) s t ∧ t.i = s.i ∧ KeepsStack s t ∧
      KeepsTimers s t ∧ KeepsMem s t ∧ t.fault = s.fault ∧ KeepsModel s t

/-- R165 (h): the same sprite drawn twice at the same place restores the framebuffer, and the second draw reports a collision exactly where the sprite has a set bit whose pixel is on after the first draw (D3, D20; logs 8, 9). -/
def Obligations.DrawTwiceRestores : Prop :=
  ∀ (x y : Reg) (n : Nat) (s : State), (Instr.drw x y n).wellFormed = true → x ≠ Reg.vf → y ≠ Reg.vf →
    ∃ t u, exec (.drw x y n) s = .next t ∧ exec (.drw x y n) t = .next u ∧ u.display.fb = s.display.fb ∧
      FlagIs (u.getV Reg.vf) (∃ cx cy, SpriteOn s x y n cx cy ∧ t.display.fb.pixel cx cy = true)

/-! ## Keys and timers -/

/-- R181, R182: SKP and SKNP: the whole byte `Vx` names the key; exactly one of the two skips. -/
def Obligations.SkipsOnKey : Prop :=
  ∀ (x : Reg) (s : State),
    Encoded (0xE09E + x.val * 256) (.skp x) ∧ Encoded (0xE0A1 + x.val * 256) (.sknp x) ∧
    ((∃ k ∈ s.input.keysHeld, k.val = (s.getV x).toNat) →
      (∃ t, exec (.skp x) s = .next t ∧ PcPlus 4 s t ∧ OnlyPc s t) ∧
      (∃ t, exec (.sknp x) s = .next t ∧ PcPlus 2 s t ∧ OnlyPc s t)) ∧
    ((¬ ∃ k ∈ s.input.keysHeld, k.val = (s.getV x).toNat) →
      (∃ t, exec (.skp x) s = .next t ∧ PcPlus 2 s t ∧ OnlyPc s t) ∧
      (∃ t, exec (.sknp x) s = .next t ∧ PcPlus 4 s t ∧ OnlyPc s t))

/-- R180: a value above 0xF names no key: SKP never skips on it and SKNP always does, whatever keys are held (D13, the spec's own reading; log 15). -/
def Obligations.KeyAboveFifteenNeverHeld : Prop :=
  ∀ (x : Reg) (s : State), 15 < (s.getV x).toNat →
    (∃ t, exec (.skp x) s = .next t ∧ PcPlus 2 s t ∧ OnlyPc s t) ∧
    (∃ t, exec (.sknp x) s = .next t ∧ PcPlus 4 s t ∧ OnlyPc s t)

/-- R183: LD Vx, K (the stall as a step that changes nothing: D14, the spec's own; log 33): with no key-down the step stalls and nothing at all changes; with one, `Vx` is the key. -/
def Obligations.WaitForKey : Prop :=
  ∀ (x : Reg) (s : State), Encoded (0xF00A + x.val * 256) (.ldVxK x) ∧
    (s.input.keydown = none → exec (.ldVxK x) s = .next s) ∧
    (∀ k, s.input.keydown = some k → ∃ t, exec (.ldVxK x) s = .next t ∧ (t.getV x).toNat = k.val ∧ PcPlus 2 s t ∧
      KeepsRegsBut (· = x) s t ∧ OnlyRegsPc s t)

/-- R184, R185, R186: LD Vx, DT; LD DT, Vx; LD ST, Vx (no tone). -/
def Obligations.TimerAccess : Prop :=
  ∀ (x : Reg) (s : State),
    Encoded (0xF007 + x.val * 256) (.ldVxDt x) ∧ Encoded (0xF015 + x.val * 256) (.ldDtVx x) ∧
    Encoded (0xF018 + x.val * 256) (.ldStVx x) ∧
    (∃ t, exec (.ldVxDt x) s = .next t ∧ t.getV x = s.dt ∧ PcPlus 2 s t ∧ KeepsRegsBut (· = x) s t ∧ OnlyRegsPc s t) ∧
    (∃ t, exec (.ldDtVx x) s = .next t ∧ t.dt = s.getV x ∧ t.st = s.st ∧ PcPlus 2 s t ∧ KeepsRegs s t ∧ t.i = s.i ∧
      KeepsStack s t ∧ KeepsMem s t ∧ t.display = s.display ∧ t.fault = s.fault ∧ KeepsModel s t) ∧
    (∃ t, exec (.ldStVx x) s = .next t ∧ t.st = s.getV x ∧ t.dt = s.dt ∧ PcPlus 2 s t ∧ KeepsRegs s t ∧ t.i = s.i ∧
      KeepsStack s t ∧ KeepsMem s t ∧ t.display = s.display ∧ t.fault = s.fault ∧ KeepsModel s t)
end

