-- ==== Sys2Proof/Laws/Decode.lean ====
section
/-! SUPPORT. The fields of an opcode as numbers, and the fields of an encoded opcode, one lemma per field per format. -/

namespace Sys2Proof

/-! ## Fields as numbers (R71) -/

theorem opFam_toNat (op : Word) : (opFam op).toNat = op.toNat / 4096 := by
  have := op.isLt
  simp only [opFam, BitVec.extractLsb'_toNat, Nat.shiftRight_eq_div_pow]; omega

theorem opX_val (op : Word) : (opX op).val = op.toNat / 256 % 16 := by
  simp only [opX, BitVec.val_toFin, BitVec.extractLsb'_toNat, Nat.shiftRight_eq_div_pow]

theorem opY_val (op : Word) : (opY op).val = op.toNat / 16 % 16 := by
  simp only [opY, BitVec.val_toFin, BitVec.extractLsb'_toNat, Nat.shiftRight_eq_div_pow]

theorem opN_toNat (op : Word) : (opN op).toNat = op.toNat % 16 := by
  simp only [opN, BitVec.extractLsb'_toNat, Nat.shiftRight_zero]

theorem opKK_toNat (op : Word) : (opKK op).toNat = op.toNat % 256 := by
  simp only [opKK, BitVec.extractLsb'_toNat, Nat.shiftRight_zero]

theorem opNNN_toNat (op : Word) : (opNNN op).toNat = op.toNat % 4096 := by
  simp only [opNNN, BitVec.extractLsb'_toNat, Nat.shiftRight_zero]

/-- Concatenation as arithmetic: the high part counts `2 ^ m` (R5). -/
theorem toNat_concat {k m : Nat} (a : BitVec k) (b : BitVec m) : (a ++ b).toNat = a.toNat * 2 ^ m + b.toNat := by
  rw [BitVec.toNat_append, ← Nat.shiftLeft_add_eq_or_of_lt b.isLt, Nat.shiftLeft_eq]

/-! ## The formats as numbers (R72) -/

theorem encodeA_toNat (f : BitVec 4) (a : Addr12) : (encodeA f a).toNat = f.toNat * 4096 + a.toNat :=
  toNat_concat f a

theorem encodeXK_toNat (f : BitVec 4) (x : Reg) (k : Byte) :
    (encodeXK f x k).toNat = f.toNat * 4096 + x.val * 256 + k.toNat := by
  have h1 := toNat_concat f (BitVec.ofFin (w := 4) x)
  have hx : (BitVec.ofFin (w := 4) x).toNat = x.val := rfl
  refine (toNat_concat (f ++ BitVec.ofFin (w := 4) x) k).trans ?_
  generalize (f ++ BitVec.ofFin (w := 4) x).toNat = q at h1 ⊢
  omega

theorem encodeXYN_toNat (f : BitVec 4) (x y : Reg) (n : BitVec 4) :
    (encodeXYN f x y n).toNat = f.toNat * 4096 + x.val * 256 + y.val * 16 + n.toNat := by
  have h1 := toNat_concat f (BitVec.ofFin (w := 4) x)
  have h2 := toNat_concat (BitVec.ofFin (w := 4) y) n
  have hx : (BitVec.ofFin (w := 4) x).toNat = x.val := rfl
  have hy : (BitVec.ofFin (w := 4) y).toNat = y.val := rfl
  refine (toNat_concat (f ++ BitVec.ofFin (w := 4) x) (BitVec.ofFin (w := 4) y ++ n)).trans ?_
  generalize (f ++ BitVec.ofFin (w := 4) x).toNat = q at h1 ⊢
  generalize (BitVec.ofFin (w := 4) y ++ n).toNat = r at h2 ⊢
  omega

/-! ## The fields of an encoded opcode -/

@[simp] theorem opFam_encodeA (f : BitVec 4) (a : Addr12) : opFam (encodeA f a) = f := by
  have := a.isLt
  apply BitVec.eq_of_toNat_eq; rw [opFam_toNat, encodeA_toNat]; omega

@[simp] theorem opNNN_encodeA (f : BitVec 4) (a : Addr12) : opNNN (encodeA f a) = a := by
  have := a.isLt
  apply BitVec.eq_of_toNat_eq; rw [opNNN_toNat, encodeA_toNat]; omega

@[simp] theorem opFam_encodeXK (f : BitVec 4) (x : Reg) (k : Byte) : opFam (encodeXK f x k) = f := by
  have := k.isLt
  apply BitVec.eq_of_toNat_eq; rw [opFam_toNat, encodeXK_toNat]; omega

@[simp] theorem opX_encodeXK (f : BitVec 4) (x : Reg) (k : Byte) : opX (encodeXK f x k) = x := by
  have := k.isLt
  apply Fin.ext; rw [opX_val, encodeXK_toNat]; omega

@[simp] theorem opKK_encodeXK (f : BitVec 4) (x : Reg) (k : Byte) : opKK (encodeXK f x k) = k := by
  have := k.isLt
  apply BitVec.eq_of_toNat_eq; rw [opKK_toNat, encodeXK_toNat]; omega

@[simp] theorem opFam_encodeXYN (f : BitVec 4) (x y : Reg) (n : BitVec 4) : opFam (encodeXYN f x y n) = f := by
  have := n.isLt
  apply BitVec.eq_of_toNat_eq; rw [opFam_toNat, encodeXYN_toNat]; omega

@[simp] theorem opX_encodeXYN (f : BitVec 4) (x y : Reg) (n : BitVec 4) : opX (encodeXYN f x y n) = x := by
  have := n.isLt
  apply Fin.ext; rw [opX_val, encodeXYN_toNat]; omega

@[simp] theorem opY_encodeXYN (f : BitVec 4) (x y : Reg) (n : BitVec 4) : opY (encodeXYN f x y n) = y := by
  have := n.isLt
  apply Fin.ext; rw [opY_val, encodeXYN_toNat]; omega

@[simp] theorem opN_encodeXYN (f : BitVec 4) (x y : Reg) (n : BitVec 4) : opN (encodeXYN f x y n) = n := by
  have := n.isLt
  apply BitVec.eq_of_toNat_eq; rw [opN_toNat, encodeXYN_toNat]; omega

/-! ## Bytes and opcodes (R52) -/

theorem opOfBytes_toNat (hi lo : Byte) : (opOfBytes hi lo).toNat = hi.toNat * 256 + lo.toNat := toNat_concat hi lo

/-- The two bytes of an opcode, put together again, are the opcode. -/
@[simp] theorem opOfBytes_bytes (op : Word) : opOfBytes (op.extractLsb' 8 8) (op.extractLsb' 0 8) = op := by
  have := op.isLt
  apply BitVec.eq_of_toNat_eq
  rw [opOfBytes_toNat]
  simp only [BitVec.extractLsb'_toNat, Nat.shiftRight_eq_div_pow]; omega

theorem opOfBytes_injective {a b c d : Byte} (h : opOfBytes a b = opOfBytes c d) : a = c ∧ b = d := by
  have hn := congrArg BitVec.toNat h
  rw [opOfBytes_toNat, opOfBytes_toNat] at hn
  have hb := b.isLt
  have hd := d.isLt
  exact ⟨BitVec.eq_of_toNat_eq (by omega), BitVec.eq_of_toNat_eq (by omega)⟩

/-- The fields put together again are the opcode, in each format. -/
theorem encodeA_fields (op : Word) : encodeA (opFam op) (opNNN op) = op := by
  have := op.isLt
  apply BitVec.eq_of_toNat_eq; rw [encodeA_toNat, opFam_toNat, opNNN_toNat]; omega

theorem encodeXK_fields (op : Word) : encodeXK (opFam op) (opX op) (opKK op) = op := by
  have := op.isLt
  apply BitVec.eq_of_toNat_eq; rw [encodeXK_toNat, opFam_toNat, opX_val, opKK_toNat]; omega

theorem encodeXYN_fields (op : Word) : encodeXYN (opFam op) (opX op) (opY op) (opN op) = op := by
  have := op.isLt
  apply BitVec.eq_of_toNat_eq; rw [encodeXYN_toNat, opFam_toNat, opX_val, opY_val, opN_toNat]; omega

end Sys2Proof
end

