-- ==== Sys2Proof/Laws/State.lean ====
section
/-! SUPPORT. One lemma per field per update of the state, true by rfl; reads of a register, of memory and of the next instruction's address through an update that does not touch them; a register read after a register write. -/

namespace Sys2Proof.Machine

variable (s : State)

/-! ## setV -/

@[simp] theorem State.setV_v (x : Reg) (b : Byte) : (s.setV x b).v = s.v.set x.val b := rfl
@[simp] theorem State.setV_i (x : Reg) (b : Byte) : (s.setV x b).i = s.i := rfl
@[simp] theorem State.setV_pc (x : Reg) (b : Byte) : (s.setV x b).pc = s.pc := rfl
@[simp] theorem State.setV_sp (x : Reg) (b : Byte) : (s.setV x b).sp = s.sp := rfl
@[simp] theorem State.setV_stack (x : Reg) (b : Byte) : (s.setV x b).stack = s.stack := rfl
@[simp] theorem State.setV_dt (x : Reg) (b : Byte) : (s.setV x b).dt = s.dt := rfl
@[simp] theorem State.setV_st (x : Reg) (b : Byte) : (s.setV x b).st = s.st := rfl
@[simp] theorem State.setV_mem (x : Reg) (b : Byte) : (s.setV x b).mem = s.mem := rfl
@[simp] theorem State.setV_display (x : Reg) (b : Byte) : (s.setV x b).display = s.display := rfl
@[simp] theorem State.setV_fault (x : Reg) (b : Byte) : (s.setV x b).fault = s.fault := rfl
@[simp] theorem State.setV_quirks (x : Reg) (b : Byte) : (s.setV x b).quirks = s.quirks := rfl
@[simp] theorem State.setV_events (x : Reg) (b : Byte) : (s.setV x b).events = s.events := rfl
@[simp] theorem State.setV_stepNo (x : Reg) (b : Byte) : (s.setV x b).stepNo = s.stepNo := rfl
@[simp] theorem State.setV_out (x : Reg) (b : Byte) : (s.setV x b).out = s.out := rfl
@[simp] theorem State.setV_loadable (x : Reg) (b : Byte) : (s.setV x b).loadable = s.loadable := rfl
@[simp] theorem State.memRead_setV (x : Reg) (b : Byte) (addr : Nat) : (s.setV x b).memRead addr = s.memRead addr := rfl
@[simp] theorem State.npc_setV (x : Reg) (b : Byte) : (s.setV x b).npc = s.npc := rfl
@[simp] theorem State.fetchWord_setV (x : Reg) (b : Byte) : (s.setV x b).fetchWord = s.fetchWord := rfl

/-! ## setRegs -/

@[simp] theorem State.setRegs_v (w : Vector Byte 16) : (s.setRegs w).v = w := rfl
@[simp] theorem State.setRegs_i (w : Vector Byte 16) : (s.setRegs w).i = s.i := rfl
@[simp] theorem State.setRegs_pc (w : Vector Byte 16) : (s.setRegs w).pc = s.pc := rfl
@[simp] theorem State.setRegs_sp (w : Vector Byte 16) : (s.setRegs w).sp = s.sp := rfl
@[simp] theorem State.setRegs_stack (w : Vector Byte 16) : (s.setRegs w).stack = s.stack := rfl
@[simp] theorem State.setRegs_dt (w : Vector Byte 16) : (s.setRegs w).dt = s.dt := rfl
@[simp] theorem State.setRegs_st (w : Vector Byte 16) : (s.setRegs w).st = s.st := rfl
@[simp] theorem State.setRegs_mem (w : Vector Byte 16) : (s.setRegs w).mem = s.mem := rfl
@[simp] theorem State.setRegs_display (w : Vector Byte 16) : (s.setRegs w).display = s.display := rfl
@[simp] theorem State.setRegs_fault (w : Vector Byte 16) : (s.setRegs w).fault = s.fault := rfl
@[simp] theorem State.setRegs_quirks (w : Vector Byte 16) : (s.setRegs w).quirks = s.quirks := rfl
@[simp] theorem State.setRegs_events (w : Vector Byte 16) : (s.setRegs w).events = s.events := rfl
@[simp] theorem State.setRegs_stepNo (w : Vector Byte 16) : (s.setRegs w).stepNo = s.stepNo := rfl
@[simp] theorem State.setRegs_out (w : Vector Byte 16) : (s.setRegs w).out = s.out := rfl
@[simp] theorem State.setRegs_loadable (w : Vector Byte 16) : (s.setRegs w).loadable = s.loadable := rfl
@[simp] theorem State.memRead_setRegs (w : Vector Byte 16) (addr : Nat) : (s.setRegs w).memRead addr = s.memRead addr := rfl
@[simp] theorem State.npc_setRegs (w : Vector Byte 16) : (s.setRegs w).npc = s.npc := rfl
@[simp] theorem State.fetchWord_setRegs (w : Vector Byte 16) : (s.setRegs w).fetchWord = s.fetchWord := rfl

/-! ## setI -/

@[simp] theorem State.setI_v (a : Word) : (s.setI a).v = s.v := rfl
@[simp] theorem State.setI_i (a : Word) : (s.setI a).i = a := rfl
@[simp] theorem State.setI_pc (a : Word) : (s.setI a).pc = s.pc := rfl
@[simp] theorem State.setI_sp (a : Word) : (s.setI a).sp = s.sp := rfl
@[simp] theorem State.setI_stack (a : Word) : (s.setI a).stack = s.stack := rfl
@[simp] theorem State.setI_dt (a : Word) : (s.setI a).dt = s.dt := rfl
@[simp] theorem State.setI_st (a : Word) : (s.setI a).st = s.st := rfl
@[simp] theorem State.setI_mem (a : Word) : (s.setI a).mem = s.mem := rfl
@[simp] theorem State.setI_display (a : Word) : (s.setI a).display = s.display := rfl
@[simp] theorem State.setI_fault (a : Word) : (s.setI a).fault = s.fault := rfl
@[simp] theorem State.setI_quirks (a : Word) : (s.setI a).quirks = s.quirks := rfl
@[simp] theorem State.setI_events (a : Word) : (s.setI a).events = s.events := rfl
@[simp] theorem State.setI_stepNo (a : Word) : (s.setI a).stepNo = s.stepNo := rfl
@[simp] theorem State.setI_out (a : Word) : (s.setI a).out = s.out := rfl
@[simp] theorem State.setI_loadable (a : Word) : (s.setI a).loadable = s.loadable := rfl
@[simp] theorem State.getV_setI (a : Word) (r : Reg) : (s.setI a).getV r = s.getV r := rfl
@[simp] theorem State.memRead_setI (a : Word) (addr : Nat) : (s.setI a).memRead addr = s.memRead addr := rfl
@[simp] theorem State.npc_setI (a : Word) : (s.setI a).npc = s.npc := rfl
@[simp] theorem State.fetchWord_setI (a : Word) : (s.setI a).fetchWord = s.fetchWord := rfl

/-! ## setDt -/

@[simp] theorem State.setDt_v (b : Byte) : (s.setDt b).v = s.v := rfl
@[simp] theorem State.setDt_i (b : Byte) : (s.setDt b).i = s.i := rfl
@[simp] theorem State.setDt_pc (b : Byte) : (s.setDt b).pc = s.pc := rfl
@[simp] theorem State.setDt_sp (b : Byte) : (s.setDt b).sp = s.sp := rfl
@[simp] theorem State.setDt_stack (b : Byte) : (s.setDt b).stack = s.stack := rfl
@[simp] theorem State.setDt_dt (b : Byte) : (s.setDt b).dt = b := rfl
@[simp] theorem State.setDt_st (b : Byte) : (s.setDt b).st = s.st := rfl
@[simp] theorem State.setDt_mem (b : Byte) : (s.setDt b).mem = s.mem := rfl
@[simp] theorem State.setDt_display (b : Byte) : (s.setDt b).display = s.display := rfl
@[simp] theorem State.setDt_fault (b : Byte) : (s.setDt b).fault = s.fault := rfl
@[simp] theorem State.setDt_quirks (b : Byte) : (s.setDt b).quirks = s.quirks := rfl
@[simp] theorem State.setDt_events (b : Byte) : (s.setDt b).events = s.events := rfl
@[simp] theorem State.setDt_stepNo (b : Byte) : (s.setDt b).stepNo = s.stepNo := rfl
@[simp] theorem State.setDt_out (b : Byte) : (s.setDt b).out = s.out := rfl
@[simp] theorem State.setDt_loadable (b : Byte) : (s.setDt b).loadable = s.loadable := rfl
@[simp] theorem State.getV_setDt (b : Byte) (r : Reg) : (s.setDt b).getV r = s.getV r := rfl
@[simp] theorem State.memRead_setDt (b : Byte) (addr : Nat) : (s.setDt b).memRead addr = s.memRead addr := rfl
@[simp] theorem State.npc_setDt (b : Byte) : (s.setDt b).npc = s.npc := rfl
@[simp] theorem State.fetchWord_setDt (b : Byte) : (s.setDt b).fetchWord = s.fetchWord := rfl

/-! ## setSt -/

@[simp] theorem State.setSt_v (b : Byte) : (s.setSt b).v = s.v := rfl
@[simp] theorem State.setSt_i (b : Byte) : (s.setSt b).i = s.i := rfl
@[simp] theorem State.setSt_pc (b : Byte) : (s.setSt b).pc = s.pc := rfl
@[simp] theorem State.setSt_sp (b : Byte) : (s.setSt b).sp = s.sp := rfl
@[simp] theorem State.setSt_stack (b : Byte) : (s.setSt b).stack = s.stack := rfl
@[simp] theorem State.setSt_dt (b : Byte) : (s.setSt b).dt = s.dt := rfl
@[simp] theorem State.setSt_st (b : Byte) : (s.setSt b).st = b := rfl
@[simp] theorem State.setSt_mem (b : Byte) : (s.setSt b).mem = s.mem := rfl
@[simp] theorem State.setSt_display (b : Byte) : (s.setSt b).display = s.display := rfl
@[simp] theorem State.setSt_fault (b : Byte) : (s.setSt b).fault = s.fault := rfl
@[simp] theorem State.setSt_quirks (b : Byte) : (s.setSt b).quirks = s.quirks := rfl
@[simp] theorem State.setSt_events (b : Byte) : (s.setSt b).events = s.events := rfl
@[simp] theorem State.setSt_stepNo (b : Byte) : (s.setSt b).stepNo = s.stepNo := rfl
@[simp] theorem State.setSt_out (b : Byte) : (s.setSt b).out = s.out := rfl
@[simp] theorem State.setSt_loadable (b : Byte) : (s.setSt b).loadable = s.loadable := rfl
@[simp] theorem State.getV_setSt (b : Byte) (r : Reg) : (s.setSt b).getV r = s.getV r := rfl
@[simp] theorem State.memRead_setSt (b : Byte) (addr : Nat) : (s.setSt b).memRead addr = s.memRead addr := rfl
@[simp] theorem State.npc_setSt (b : Byte) : (s.setSt b).npc = s.npc := rfl
@[simp] theorem State.fetchWord_setSt (b : Byte) : (s.setSt b).fetchWord = s.fetchWord := rfl

/-! ## setPc -/

@[simp] theorem State.setPc_v (a : Word) : (s.setPc a).v = s.v := rfl
@[simp] theorem State.setPc_i (a : Word) : (s.setPc a).i = s.i := rfl
@[simp] theorem State.setPc_pc (a : Word) : (s.setPc a).pc = a := rfl
@[simp] theorem State.setPc_sp (a : Word) : (s.setPc a).sp = s.sp := rfl
@[simp] theorem State.setPc_stack (a : Word) : (s.setPc a).stack = s.stack := rfl
@[simp] theorem State.setPc_dt (a : Word) : (s.setPc a).dt = s.dt := rfl
@[simp] theorem State.setPc_st (a : Word) : (s.setPc a).st = s.st := rfl
@[simp] theorem State.setPc_mem (a : Word) : (s.setPc a).mem = s.mem := rfl
@[simp] theorem State.setPc_display (a : Word) : (s.setPc a).display = s.display := rfl
@[simp] theorem State.setPc_fault (a : Word) : (s.setPc a).fault = s.fault := rfl
@[simp] theorem State.setPc_quirks (a : Word) : (s.setPc a).quirks = s.quirks := rfl
@[simp] theorem State.setPc_events (a : Word) : (s.setPc a).events = s.events := rfl
@[simp] theorem State.setPc_stepNo (a : Word) : (s.setPc a).stepNo = s.stepNo := rfl
@[simp] theorem State.setPc_out (a : Word) : (s.setPc a).out = s.out := rfl
@[simp] theorem State.setPc_loadable (a : Word) : (s.setPc a).loadable = s.loadable := rfl
@[simp] theorem State.getV_setPc (a : Word) (r : Reg) : (s.setPc a).getV r = s.getV r := rfl
@[simp] theorem State.memRead_setPc (a : Word) (addr : Nat) : (s.setPc a).memRead addr = s.memRead addr := rfl

/-! ## advance -/

@[simp] theorem State.advance_v : s.advance.v = s.v := rfl
@[simp] theorem State.advance_i : s.advance.i = s.i := rfl
@[simp] theorem State.advance_pc : s.advance.pc = s.npc := rfl
@[simp] theorem State.advance_sp : s.advance.sp = s.sp := rfl
@[simp] theorem State.advance_stack : s.advance.stack = s.stack := rfl
@[simp] theorem State.advance_dt : s.advance.dt = s.dt := rfl
@[simp] theorem State.advance_st : s.advance.st = s.st := rfl
@[simp] theorem State.advance_mem : s.advance.mem = s.mem := rfl
@[simp] theorem State.advance_display : s.advance.display = s.display := rfl
@[simp] theorem State.advance_fault : s.advance.fault = s.fault := rfl
@[simp] theorem State.advance_quirks : s.advance.quirks = s.quirks := rfl
@[simp] theorem State.advance_events : s.advance.events = s.events := rfl
@[simp] theorem State.advance_stepNo : s.advance.stepNo = s.stepNo := rfl
@[simp] theorem State.advance_out : s.advance.out = s.out := rfl
@[simp] theorem State.advance_loadable : s.advance.loadable = s.loadable := rfl
@[simp] theorem State.getV_advance (r : Reg) : s.advance.getV r = s.getV r := rfl
@[simp] theorem State.memRead_advance (addr : Nat) : s.advance.memRead addr = s.memRead addr := rfl

/-! ## skipIf -/

@[simp] theorem State.skipIf_v (c : Bool) : (s.skipIf c).v = s.v := rfl
@[simp] theorem State.skipIf_i (c : Bool) : (s.skipIf c).i = s.i := rfl
@[simp] theorem State.skipIf_pc (c : Bool) : (s.skipIf c).pc = if c then s.npc + 2 else s.npc := rfl
@[simp] theorem State.skipIf_sp (c : Bool) : (s.skipIf c).sp = s.sp := rfl
@[simp] theorem State.skipIf_stack (c : Bool) : (s.skipIf c).stack = s.stack := rfl
@[simp] theorem State.skipIf_dt (c : Bool) : (s.skipIf c).dt = s.dt := rfl
@[simp] theorem State.skipIf_st (c : Bool) : (s.skipIf c).st = s.st := rfl
@[simp] theorem State.skipIf_mem (c : Bool) : (s.skipIf c).mem = s.mem := rfl
@[simp] theorem State.skipIf_display (c : Bool) : (s.skipIf c).display = s.display := rfl
@[simp] theorem State.skipIf_fault (c : Bool) : (s.skipIf c).fault = s.fault := rfl
@[simp] theorem State.skipIf_quirks (c : Bool) : (s.skipIf c).quirks = s.quirks := rfl
@[simp] theorem State.skipIf_events (c : Bool) : (s.skipIf c).events = s.events := rfl
@[simp] theorem State.skipIf_stepNo (c : Bool) : (s.skipIf c).stepNo = s.stepNo := rfl
@[simp] theorem State.skipIf_out (c : Bool) : (s.skipIf c).out = s.out := rfl
@[simp] theorem State.skipIf_loadable (c : Bool) : (s.skipIf c).loadable = s.loadable := rfl
@[simp] theorem State.getV_skipIf (c : Bool) (r : Reg) : (s.skipIf c).getV r = s.getV r := rfl
@[simp] theorem State.memRead_skipIf (c : Bool) (addr : Nat) : (s.skipIf c).memRead addr = s.memRead addr := rfl

/-! ## push -/

@[simp] theorem State.push_v (a : Word) (h : s.sp.val < Config.stackDepth) : (s.push a h).v = s.v := rfl
@[simp] theorem State.push_i (a : Word) (h : s.sp.val < Config.stackDepth) : (s.push a h).i = s.i := rfl
@[simp] theorem State.push_pc (a : Word) (h : s.sp.val < Config.stackDepth) : (s.push a h).pc = s.pc := rfl
@[simp] theorem State.push_sp (a : Word) (h : s.sp.val < Config.stackDepth) : (s.push a h).sp = ⟨s.sp.val + 1, Nat.succ_lt_succ h⟩ := rfl
@[simp] theorem State.push_stack (a : Word) (h : s.sp.val < Config.stackDepth) : (s.push a h).stack = s.stack.set s.sp.val a h := rfl
@[simp] theorem State.push_dt (a : Word) (h : s.sp.val < Config.stackDepth) : (s.push a h).dt = s.dt := rfl
@[simp] theorem State.push_st (a : Word) (h : s.sp.val < Config.stackDepth) : (s.push a h).st = s.st := rfl
@[simp] theorem State.push_mem (a : Word) (h : s.sp.val < Config.stackDepth) : (s.push a h).mem = s.mem := rfl
@[simp] theorem State.push_display (a : Word) (h : s.sp.val < Config.stackDepth) : (s.push a h).display = s.display := rfl
@[simp] theorem State.push_fault (a : Word) (h : s.sp.val < Config.stackDepth) : (s.push a h).fault = s.fault := rfl
@[simp] theorem State.push_quirks (a : Word) (h : s.sp.val < Config.stackDepth) : (s.push a h).quirks = s.quirks := rfl
@[simp] theorem State.push_events (a : Word) (h : s.sp.val < Config.stackDepth) : (s.push a h).events = s.events := rfl
@[simp] theorem State.push_stepNo (a : Word) (h : s.sp.val < Config.stackDepth) : (s.push a h).stepNo = s.stepNo := rfl
@[simp] theorem State.push_out (a : Word) (h : s.sp.val < Config.stackDepth) : (s.push a h).out = s.out := rfl
@[simp] theorem State.push_loadable (a : Word) (h : s.sp.val < Config.stackDepth) : (s.push a h).loadable = s.loadable := rfl
@[simp] theorem State.getV_push (a : Word) (h : s.sp.val < Config.stackDepth) (r : Reg) : (s.push a h).getV r = s.getV r := rfl
@[simp] theorem State.memRead_push (a : Word) (h : s.sp.val < Config.stackDepth) (addr : Nat) : (s.push a h).memRead addr = s.memRead addr := rfl
@[simp] theorem State.npc_push (a : Word) (h : s.sp.val < Config.stackDepth) : (s.push a h).npc = s.npc := rfl
@[simp] theorem State.fetchWord_push (a : Word) (h : s.sp.val < Config.stackDepth) : (s.push a h).fetchWord = s.fetchWord := rfl

/-! ## drop -/

@[simp] theorem State.drop_v : s.drop.v = s.v := rfl
@[simp] theorem State.drop_i : s.drop.i = s.i := rfl
@[simp] theorem State.drop_pc : s.drop.pc = s.pc := rfl
@[simp] theorem State.drop_sp : s.drop.sp = ⟨s.sp.val - 1, Nat.lt_of_le_of_lt (Nat.sub_le _ _) s.sp.isLt⟩ := rfl
@[simp] theorem State.drop_stack : s.drop.stack = s.stack := rfl
@[simp] theorem State.drop_dt : s.drop.dt = s.dt := rfl
@[simp] theorem State.drop_st : s.drop.st = s.st := rfl
@[simp] theorem State.drop_mem : s.drop.mem = s.mem := rfl
@[simp] theorem State.drop_display : s.drop.display = s.display := rfl
@[simp] theorem State.drop_fault : s.drop.fault = s.fault := rfl
@[simp] theorem State.drop_quirks : s.drop.quirks = s.quirks := rfl
@[simp] theorem State.drop_events : s.drop.events = s.events := rfl
@[simp] theorem State.drop_stepNo : s.drop.stepNo = s.stepNo := rfl
@[simp] theorem State.drop_out : s.drop.out = s.out := rfl
@[simp] theorem State.drop_loadable : s.drop.loadable = s.loadable := rfl
@[simp] theorem State.getV_drop (r : Reg) : s.drop.getV r = s.getV r := rfl
@[simp] theorem State.memRead_drop (addr : Nat) : s.drop.memRead addr = s.memRead addr := rfl
@[simp] theorem State.npc_drop : s.drop.npc = s.npc := rfl
@[simp] theorem State.fetchWord_drop : s.drop.fetchWord = s.fetchWord := rfl

/-! ## memWrite -/

@[simp] theorem State.memWrite_v (addr : Nat) (bs : List Byte) : (s.memWrite addr bs).v = s.v := rfl
@[simp] theorem State.memWrite_i (addr : Nat) (bs : List Byte) : (s.memWrite addr bs).i = s.i := rfl
@[simp] theorem State.memWrite_pc (addr : Nat) (bs : List Byte) : (s.memWrite addr bs).pc = s.pc := rfl
@[simp] theorem State.memWrite_sp (addr : Nat) (bs : List Byte) : (s.memWrite addr bs).sp = s.sp := rfl
@[simp] theorem State.memWrite_stack (addr : Nat) (bs : List Byte) : (s.memWrite addr bs).stack = s.stack := rfl
@[simp] theorem State.memWrite_dt (addr : Nat) (bs : List Byte) : (s.memWrite addr bs).dt = s.dt := rfl
@[simp] theorem State.memWrite_st (addr : Nat) (bs : List Byte) : (s.memWrite addr bs).st = s.st := rfl
@[simp] theorem State.memWrite_mem (addr : Nat) (bs : List Byte) : (s.memWrite addr bs).mem = s.mem.storeBlock addr bs := rfl
@[simp] theorem State.memWrite_display (addr : Nat) (bs : List Byte) : (s.memWrite addr bs).display = s.display := rfl
@[simp] theorem State.memWrite_fault (addr : Nat) (bs : List Byte) : (s.memWrite addr bs).fault = s.fault := rfl
@[simp] theorem State.memWrite_quirks (addr : Nat) (bs : List Byte) : (s.memWrite addr bs).quirks = s.quirks := rfl
@[simp] theorem State.memWrite_events (addr : Nat) (bs : List Byte) : (s.memWrite addr bs).events = s.events := rfl
@[simp] theorem State.memWrite_stepNo (addr : Nat) (bs : List Byte) : (s.memWrite addr bs).stepNo = s.stepNo := rfl
@[simp] theorem State.memWrite_out (addr : Nat) (bs : List Byte) : (s.memWrite addr bs).out = s.out := rfl
@[simp] theorem State.memWrite_loadable (addr : Nat) (bs : List Byte) : (s.memWrite addr bs).loadable = s.loadable := rfl
@[simp] theorem State.getV_memWrite (addr : Nat) (bs : List Byte) (r : Reg) : (s.memWrite addr bs).getV r = s.getV r := rfl
@[simp] theorem State.npc_memWrite (addr : Nat) (bs : List Byte) : (s.memWrite addr bs).npc = s.npc := rfl

/-! ## setDisplay -/

@[simp] theorem State.setDisplay_v (d : Display) : (s.setDisplay d).v = s.v := rfl
@[simp] theorem State.setDisplay_i (d : Display) : (s.setDisplay d).i = s.i := rfl
@[simp] theorem State.setDisplay_pc (d : Display) : (s.setDisplay d).pc = s.pc := rfl
@[simp] theorem State.setDisplay_sp (d : Display) : (s.setDisplay d).sp = s.sp := rfl
@[simp] theorem State.setDisplay_stack (d : Display) : (s.setDisplay d).stack = s.stack := rfl
@[simp] theorem State.setDisplay_dt (d : Display) : (s.setDisplay d).dt = s.dt := rfl
@[simp] theorem State.setDisplay_st (d : Display) : (s.setDisplay d).st = s.st := rfl
@[simp] theorem State.setDisplay_mem (d : Display) : (s.setDisplay d).mem = s.mem := rfl
@[simp] theorem State.setDisplay_display (d : Display) : (s.setDisplay d).display = d := rfl
@[simp] theorem State.setDisplay_fault (d : Display) : (s.setDisplay d).fault = s.fault := rfl
@[simp] theorem State.setDisplay_quirks (d : Display) : (s.setDisplay d).quirks = s.quirks := rfl
@[simp] theorem State.setDisplay_events (d : Display) : (s.setDisplay d).events = s.events := rfl
@[simp] theorem State.setDisplay_stepNo (d : Display) : (s.setDisplay d).stepNo = s.stepNo := rfl
@[simp] theorem State.setDisplay_out (d : Display) : (s.setDisplay d).out = s.out := rfl
@[simp] theorem State.setDisplay_loadable (d : Display) : (s.setDisplay d).loadable = s.loadable := rfl
@[simp] theorem State.getV_setDisplay (d : Display) (r : Reg) : (s.setDisplay d).getV r = s.getV r := rfl
@[simp] theorem State.memRead_setDisplay (d : Display) (addr : Nat) : (s.setDisplay d).memRead addr = s.memRead addr := rfl
@[simp] theorem State.npc_setDisplay (d : Display) : (s.setDisplay d).npc = s.npc := rfl
@[simp] theorem State.fetchWord_setDisplay (d : Display) : (s.setDisplay d).fetchWord = s.fetchWord := rfl

/-! ## raise -/

@[simp] theorem State.raise_v (c : FaultCause) (op : Word) : (s.raise c op).v = s.v := rfl
@[simp] theorem State.raise_i (c : FaultCause) (op : Word) : (s.raise c op).i = s.i := rfl
@[simp] theorem State.raise_pc (c : FaultCause) (op : Word) : (s.raise c op).pc = s.pc := rfl
@[simp] theorem State.raise_sp (c : FaultCause) (op : Word) : (s.raise c op).sp = s.sp := rfl
@[simp] theorem State.raise_stack (c : FaultCause) (op : Word) : (s.raise c op).stack = s.stack := rfl
@[simp] theorem State.raise_dt (c : FaultCause) (op : Word) : (s.raise c op).dt = s.dt := rfl
@[simp] theorem State.raise_st (c : FaultCause) (op : Word) : (s.raise c op).st = s.st := rfl
@[simp] theorem State.raise_mem (c : FaultCause) (op : Word) : (s.raise c op).mem = s.mem := rfl
@[simp] theorem State.raise_display (c : FaultCause) (op : Word) : (s.raise c op).display = s.display := rfl
@[simp] theorem State.raise_fault (c : FaultCause) (op : Word) : (s.raise c op).fault = ⟨c, op⟩ := rfl
@[simp] theorem State.raise_quirks (c : FaultCause) (op : Word) : (s.raise c op).quirks = s.quirks := rfl
@[simp] theorem State.raise_events (c : FaultCause) (op : Word) : (s.raise c op).events = s.events := rfl
@[simp] theorem State.raise_stepNo (c : FaultCause) (op : Word) : (s.raise c op).stepNo = s.stepNo := rfl
@[simp] theorem State.raise_out (c : FaultCause) (op : Word) : (s.raise c op).out = s.out := rfl
@[simp] theorem State.raise_loadable (c : FaultCause) (op : Word) : (s.raise c op).loadable = s.loadable := rfl
@[simp] theorem State.getV_raise (c : FaultCause) (op : Word) (r : Reg) : (s.raise c op).getV r = s.getV r := rfl
@[simp] theorem State.memRead_raise (c : FaultCause) (op : Word) (addr : Nat) : (s.raise c op).memRead addr = s.memRead addr := rfl
@[simp] theorem State.npc_raise (c : FaultCause) (op : Word) : (s.raise c op).npc = s.npc := rfl
@[simp] theorem State.fetchWord_raise (c : FaultCause) (op : Word) : (s.raise c op).fetchWord = s.fetchWord := rfl

/-! ## clearFault -/

@[simp] theorem State.clearFault_v : s.clearFault.v = s.v := rfl
@[simp] theorem State.clearFault_i : s.clearFault.i = s.i := rfl
@[simp] theorem State.clearFault_pc : s.clearFault.pc = s.pc := rfl
@[simp] theorem State.clearFault_sp : s.clearFault.sp = s.sp := rfl
@[simp] theorem State.clearFault_stack : s.clearFault.stack = s.stack := rfl
@[simp] theorem State.clearFault_dt : s.clearFault.dt = s.dt := rfl
@[simp] theorem State.clearFault_st : s.clearFault.st = s.st := rfl
@[simp] theorem State.clearFault_mem : s.clearFault.mem = s.mem := rfl
@[simp] theorem State.clearFault_display : s.clearFault.display = s.display := rfl
@[simp] theorem State.clearFault_fault : s.clearFault.fault = ⟨.none, s.fault.opcode⟩ := rfl
@[simp] theorem State.clearFault_quirks : s.clearFault.quirks = s.quirks := rfl
@[simp] theorem State.clearFault_events : s.clearFault.events = s.events := rfl
@[simp] theorem State.clearFault_stepNo : s.clearFault.stepNo = s.stepNo := rfl
@[simp] theorem State.clearFault_out : s.clearFault.out = s.out := rfl
@[simp] theorem State.clearFault_loadable : s.clearFault.loadable = s.loadable := rfl
@[simp] theorem State.getV_clearFault (r : Reg) : s.clearFault.getV r = s.getV r := rfl
@[simp] theorem State.memRead_clearFault (addr : Nat) : s.clearFault.memRead addr = s.memRead addr := rfl
@[simp] theorem State.npc_clearFault : s.clearFault.npc = s.npc := rfl
@[simp] theorem State.fetchWord_clearFault : s.clearFault.fetchWord = s.fetchWord := rfl

/-! ## stepDone -/

@[simp] theorem State.stepDone_v : s.stepDone.v = s.v := rfl
@[simp] theorem State.stepDone_i : s.stepDone.i = s.i := rfl
@[simp] theorem State.stepDone_pc : s.stepDone.pc = s.pc := rfl
@[simp] theorem State.stepDone_sp : s.stepDone.sp = s.sp := rfl
@[simp] theorem State.stepDone_stack : s.stepDone.stack = s.stack := rfl
@[simp] theorem State.stepDone_dt : s.stepDone.dt = s.dt := rfl
@[simp] theorem State.stepDone_st : s.stepDone.st = s.st := rfl
@[simp] theorem State.stepDone_mem : s.stepDone.mem = s.mem := rfl
@[simp] theorem State.stepDone_display : s.stepDone.display = s.display := rfl
@[simp] theorem State.stepDone_fault : s.stepDone.fault = s.fault := rfl
@[simp] theorem State.stepDone_quirks : s.stepDone.quirks = s.quirks := rfl
@[simp] theorem State.stepDone_events : s.stepDone.events = s.events.tail := rfl
@[simp] theorem State.stepDone_stepNo : s.stepDone.stepNo = s.stepNo + 1 := rfl
@[simp] theorem State.stepDone_out : s.stepDone.out = s.out := rfl
@[simp] theorem State.stepDone_loadable : s.stepDone.loadable = false := rfl
@[simp] theorem State.getV_stepDone (r : Reg) : s.stepDone.getV r = s.getV r := rfl
@[simp] theorem State.memRead_stepDone (addr : Nat) : s.stepDone.memRead addr = s.memRead addr := rfl
@[simp] theorem State.npc_stepDone : s.stepDone.npc = s.npc := rfl
@[simp] theorem State.fetchWord_stepDone : s.stepDone.fetchWord = s.fetchWord := rfl

/-! ## popEvent -/

@[simp] theorem State.popEvent_v : s.popEvent.v = s.v := rfl
@[simp] theorem State.popEvent_i : s.popEvent.i = s.i := rfl
@[simp] theorem State.popEvent_pc : s.popEvent.pc = s.pc := rfl
@[simp] theorem State.popEvent_sp : s.popEvent.sp = s.sp := rfl
@[simp] theorem State.popEvent_stack : s.popEvent.stack = s.stack := rfl
@[simp] theorem State.popEvent_dt : s.popEvent.dt = s.dt := rfl
@[simp] theorem State.popEvent_st : s.popEvent.st = s.st := rfl
@[simp] theorem State.popEvent_mem : s.popEvent.mem = s.mem := rfl
@[simp] theorem State.popEvent_display : s.popEvent.display = s.display := rfl
@[simp] theorem State.popEvent_fault : s.popEvent.fault = s.fault := rfl
@[simp] theorem State.popEvent_quirks : s.popEvent.quirks = s.quirks := rfl
@[simp] theorem State.popEvent_events : s.popEvent.events = s.events.tail := rfl
@[simp] theorem State.popEvent_stepNo : s.popEvent.stepNo = s.stepNo := rfl
@[simp] theorem State.popEvent_out : s.popEvent.out = s.out := rfl
@[simp] theorem State.popEvent_loadable : s.popEvent.loadable = s.loadable := rfl
@[simp] theorem State.getV_popEvent (r : Reg) : s.popEvent.getV r = s.getV r := rfl
@[simp] theorem State.memRead_popEvent (addr : Nat) : s.popEvent.memRead addr = s.memRead addr := rfl
@[simp] theorem State.npc_popEvent : s.popEvent.npc = s.npc := rfl
@[simp] theorem State.fetchWord_popEvent : s.popEvent.fetchWord = s.fetchWord := rfl

/-! ## emit -/

@[simp] theorem State.emit_v (o : Output) : (s.emit o).v = s.v := rfl
@[simp] theorem State.emit_i (o : Output) : (s.emit o).i = s.i := rfl
@[simp] theorem State.emit_pc (o : Output) : (s.emit o).pc = s.pc := rfl
@[simp] theorem State.emit_sp (o : Output) : (s.emit o).sp = s.sp := rfl
@[simp] theorem State.emit_stack (o : Output) : (s.emit o).stack = s.stack := rfl
@[simp] theorem State.emit_dt (o : Output) : (s.emit o).dt = s.dt := rfl
@[simp] theorem State.emit_st (o : Output) : (s.emit o).st = s.st := rfl
@[simp] theorem State.emit_mem (o : Output) : (s.emit o).mem = s.mem := rfl
@[simp] theorem State.emit_display (o : Output) : (s.emit o).display = s.display := rfl
@[simp] theorem State.emit_fault (o : Output) : (s.emit o).fault = s.fault := rfl
@[simp] theorem State.emit_quirks (o : Output) : (s.emit o).quirks = s.quirks := rfl
@[simp] theorem State.emit_events (o : Output) : (s.emit o).events = s.events := rfl
@[simp] theorem State.emit_stepNo (o : Output) : (s.emit o).stepNo = s.stepNo := rfl
@[simp] theorem State.emit_out (o : Output) : (s.emit o).out = s.out ++ [o] := rfl
@[simp] theorem State.emit_loadable (o : Output) : (s.emit o).loadable = s.loadable := rfl
@[simp] theorem State.getV_emit (o : Output) (r : Reg) : (s.emit o).getV r = s.getV r := rfl
@[simp] theorem State.memRead_emit (o : Output) (addr : Nat) : (s.emit o).memRead addr = s.memRead addr := rfl
@[simp] theorem State.npc_emit (o : Output) : (s.emit o).npc = s.npc := rfl
@[simp] theorem State.fetchWord_emit (o : Output) : (s.emit o).fetchWord = s.fetchWord := rfl

/-! ## A register read after a register write -/

@[simp] theorem State.getV_setV_same (x : Reg) (b : Byte) : (s.setV x b).getV x = b := by
  simp [State.getV, State.setV]

theorem State.getV_setV (x r : Reg) (b : Byte) : (s.setV x b).getV r = if r = x then b else s.getV r := by
  simp only [State.getV, State.setV, Vector.getElem_set, Fin.ext_iff, eq_comm]

theorem State.getV_setV_ne {x r : Reg} (b : Byte) (h : r ≠ x) : (s.setV x b).getV r = s.getV r := by
  rw [State.getV_setV, if_neg h]

@[simp] theorem State.getV_setRegs (w : Vector Byte 16) (r : Reg) : (s.setRegs w).getV r = w[r.val] := rfl

/-- Two states with the same sixteen registers have the same register file. -/
theorem State.v_ext {s t : State} (h : ∀ r, t.getV r = s.getV r) : t.v = s.v :=
  Vector.ext fun k hk => h ⟨k, hk⟩

end Sys2Proof.Machine
end

