-- ==== Sys2Proof/Laws/Memory.lean ====
section
/-! SUPPORT. Memory: a read after a write, and every memory operation keeps the canonical form. -/

namespace Sys2Proof.Machine

theorem Memory.wfFrom_cons {lo : Nat} {c : Host.Cell} {m : Memory} :
    Memory.wfFrom lo (c :: m) = true ↔
      lo ≤ c.1 ∧ c.1 < Config.memSize ∧ c.2 ≠ Memory.unlisted c.1 ∧ Memory.wfFrom (c.1 + 1) m = true := by
  simp [Memory.wfFrom, and_assoc]

theorem Memory.wfFrom_mono {lo lo' : Nat} {m : Memory} (h : Memory.wfFrom lo m = true) (hle : lo' ≤ lo) :
    Memory.wfFrom lo' m = true := by
  cases m with
  | nil => rfl
  | cons c m => rw [Memory.wfFrom_cons] at h ⊢; exact ⟨hle.trans h.1, h.2⟩

/-- An address below every entry is unlisted. -/
theorem Memory.readByte_below {lo a : Nat} {m : Memory} (h : Memory.wfFrom lo m = true) (ha : a < lo) :
    m.readByte a = Memory.unlisted a := by
  induction m generalizing lo with
  | nil => rfl
  | cons c m ih =>
    rw [Memory.wfFrom_cons] at h
    have hne : c.1 ≠ a := by omega
    simp only [Memory.readByte, if_neg hne]
    exact ih h.2.2.2 (by omega)

theorem Memory.wfFrom_consCell {lo a : Nat} {b : Byte} {m : Memory} (hm : Memory.wfFrom (a + 1) m = true)
    (hlo : lo ≤ a) (ha : a < Config.memSize) : Memory.wfFrom lo (Memory.consCell a b m) = true := by
  unfold Memory.consCell
  split
  · exact Memory.wfFrom_mono hm (by omega)
  · exact Memory.wfFrom_cons.2 ⟨hlo, ha, ‹_›, hm⟩

theorem Memory.wfFrom_writeByte {lo a : Nat} {m : Memory} (b : Byte) (hm : Memory.wfFrom lo m = true)
    (hlo : lo ≤ a) (ha : a < Config.memSize) : Memory.wfFrom lo (m.writeByte a b) = true := by
  induction m generalizing lo with
  | nil => exact Memory.wfFrom_consCell rfl hlo ha
  | cons c m ih =>
    have h := Memory.wfFrom_cons.1 hm
    unfold Memory.writeByte
    split
    · exact Memory.wfFrom_cons.2 ⟨h.1, h.2.1, h.2.2.1, ih h.2.2.2 (by omega)⟩
    · split
      · exact Memory.wfFrom_consCell (by rename_i e; exact e ▸ h.2.2.2) hlo ha
      · exact Memory.wfFrom_consCell (Memory.wfFrom_cons.2 ⟨by omega, h.2⟩) hlo ha

theorem Memory.readByte_consCell_same {a : Nat} {b : Byte} {m : Memory} (hm : Memory.wfFrom (a + 1) m = true) :
    (Memory.consCell a b m).readByte a = b := by
  unfold Memory.consCell
  split
  · rw [Memory.readByte_below hm (by omega)]; exact ‹b = _›.symm
  · simp [Memory.readByte]

theorem Memory.readByte_consCell_ne {a a' : Nat} {b : Byte} {m : Memory} (h : a' ≠ a) :
    (Memory.consCell a b m).readByte a' = m.readByte a' := by
  unfold Memory.consCell
  split
  · rfl
  · simp [Memory.readByte, h.symm]

theorem Memory.readByte_writeByte_same {lo a : Nat} {m : Memory} (b : Byte) (hm : Memory.wfFrom lo m = true) :
    (m.writeByte a b).readByte a = b := by
  induction m generalizing lo with
  | nil => exact Memory.readByte_consCell_same rfl
  | cons c m ih =>
    have h := Memory.wfFrom_cons.1 hm
    unfold Memory.writeByte
    split
    · have hne : c.1 ≠ a := by omega
      simp only [Memory.readByte, if_neg hne]; exact ih h.2.2.2
    · split
      · exact Memory.readByte_consCell_same (by rename_i e; exact e ▸ h.2.2.2)
      · exact Memory.readByte_consCell_same (Memory.wfFrom_cons.2 ⟨by omega, h.2⟩)

theorem Memory.readByte_writeByte_ne {a a' : Nat} (m : Memory) (b : Byte) (h : a' ≠ a) :
    (m.writeByte a b).readByte a' = m.readByte a' := by
  induction m with
  | nil => exact Memory.readByte_consCell_ne h
  | cons c m ih =>
    unfold Memory.writeByte
    split
    · simp only [Memory.readByte, ih]
    · split
      · rw [Memory.readByte_consCell_ne h]
        have hne : c.1 ≠ a' := by omega
        simp only [Memory.readByte, if_neg hne]
      · exact Memory.readByte_consCell_ne h

/-! ## Reduced addresses -/

theorem Memory.wf_store {m : Memory} (addr : Nat) (b : Byte) (hm : m.wf = true) : (m.store addr b).wf = true :=
  Memory.wfFrom_writeByte b hm (Nat.zero_le _) (Nat.mod_lt _ (by decide))

theorem Memory.load_store {m : Memory} (a a' : Nat) (b : Byte) (hm : m.wf = true) :
    (m.store a b).load a' = if a' % Config.memSize = a % Config.memSize then b else m.load a' := by
  unfold Memory.load Memory.store
  split
  · rename_i e; rw [e]; exact Memory.readByte_writeByte_same b hm
  · exact Memory.readByte_writeByte_ne m b ‹_›

theorem Memory.load_store_ne (m : Memory) {a a' : Nat} (b : Byte) (h : a' % Config.memSize ≠ a % Config.memSize) :
    (m.store a b).load a' = m.load a' := Memory.readByte_writeByte_ne m b h

@[simp] theorem Memory.load_mod (m : Memory) (a : Nat) : m.load (a % Config.memSize) = m.load a := by
  simp [Memory.load]

theorem Memory.load_congr (m : Memory) {a a' : Nat} (h : a % Config.memSize = a' % Config.memSize) :
    m.load a = m.load a' := by simp only [Memory.load, h]

/-! ## Blocks -/

theorem Memory.wf_storeBlock {m : Memory} (addr : Nat) (bs : List Byte) (hm : m.wf = true) :
    (m.storeBlock addr bs).wf = true := by
  induction bs generalizing m addr with
  | nil => exact hm
  | cons b bs ih => exact ih (addr + 1) (Memory.wf_store addr b hm)

theorem Memory.wf_loadFont {m : Memory} (hm : m.wf = true) : m.loadFont.wf = true := Memory.wf_storeBlock 0 _ hm

/-- An address that no byte of the block falls on reads as before. -/
theorem Memory.load_storeBlock_out (m : Memory) (addr a' : Nat) (bs : List Byte)
    (h : ∀ j < bs.length, a' % Config.memSize ≠ (addr + j) % Config.memSize) :
    (m.storeBlock addr bs).load a' = m.load a' := by
  induction bs generalizing m addr with
  | nil => rfl
  | cons b bs ih =>
    rw [Memory.storeBlock, ih (m.store addr b) (addr + 1), Memory.load_store_ne m b]
    · exact h 0 (Nat.succ_pos _)
    · intro j hj
      have := h (j + 1) (by simpa using hj)
      rwa [show addr + (j + 1) = addr + 1 + j by omega] at this

/-- The `k`-th byte of a block no longer than the memory is at its own address. -/
theorem Memory.load_storeBlock_in {m : Memory} (addr k : Nat) (bs : List Byte) (hm : m.wf = true)
    (hlen : bs.length ≤ Config.memSize) (hk : k < bs.length) :
    (m.storeBlock addr bs).load (addr + k) = bs[k] := by
  induction bs generalizing m addr k with
  | nil => exact absurd hk (Nat.not_lt_zero _)
  | cons b bs ih =>
    rw [Memory.storeBlock]
    simp only [List.length_cons] at hlen hk
    cases k with
    | zero =>
      rw [Memory.load_storeBlock_out, Memory.load_store _ _ _ hm]
      · simp
      · intro j hj; simp only [Config.memSize] at hlen ⊢; omega
    | succ k =>
      rw [show addr + (k + 1) = addr + 1 + k by omega,
        ih (addr + 1) k (Memory.wf_store addr b hm) (by omega) (by omega)]
      rfl

@[simp] theorem Memory.length_loadBlock (m : Memory) (addr k : Nat) : (m.loadBlock addr k).length = k := by
  induction k generalizing addr with
  | zero => rfl
  | succ k ih => simp [Memory.loadBlock, ih]

theorem Memory.getElem_loadBlock (m : Memory) (addr k j : Nat) (hj : j < (m.loadBlock addr k).length) :
    (m.loadBlock addr k)[j] = m.load (addr + j) := by
  induction k generalizing addr j with
  | zero => simp at hj
  | succ k ih =>
    cases j with
    | zero => rfl
    | succ j =>
      simp only [Memory.loadBlock, List.getElem_cons_succ]
      rw [ih]
      congr 1; omega

/-- After `load_font` the first 80 addresses hold the font and the others what they held (R55, R230). -/
theorem Memory.load_loadFont {m : Memory} (hm : m.wf = true) (k : Nat) (hk : k < 80) :
    m.loadFont.load k = fontBytes[k]'hk := by
  have hl : fontBytes.length = 80 := rfl
  have h := Memory.load_storeBlock_in 0 k fontBytes hm (by rw [hl]; decide) (by rw [hl]; exact hk)
  rwa [Nat.zero_add] at h

theorem Memory.load_loadFont_above (m : Memory) (a : Nat) (h : 80 ≤ a % Config.memSize) :
    m.loadFont.load a = m.load a := by
  have hl : fontBytes.length = 80 := rfl
  refine Memory.load_storeBlock_out m 0 a fontBytes fun j hj => ?_
  rw [hl] at hj
  simp only [Config.memSize] at h ⊢; omega

end Sys2Proof.Machine
end

