-- ==== Sys2Proof/Laws/Screen.lean ====
section
/-! SUPPORT. The framebuffer: a pixel after a flip, after `clear`, and what one column, one row and a sprite do. -/

namespace Sys2Proof.Machine

theorem FrameBuffer.pixel_mod (fb : FrameBuffer) (px py : Nat) :
    fb.pixel (px % Config.width) (py % Config.height) = fb.pixel px py := by
  simp [FrameBuffer.pixel]

theorem FrameBuffer.pixel_flip (fb : FrameBuffer) (px py cx cy : Nat) :
    (fb.flip px py).pixel cx cy =
      if cx % Config.width = px % Config.width ∧ cy % Config.height = py % Config.height then !fb.pixel px py
      else fb.pixel cx cy := by
  unfold FrameBuffer.flip FrameBuffer.pixel
  simp only [Vector.getElem_set]
  by_cases hy : py % Config.height = cy % Config.height
  · by_cases hx : px % Config.width = cx % Config.width
    · simp [hx, hy]
    · simp [hy, Ne.symm hx, hx]
  · simp [hy, Ne.symm hy]

/-- Two grids with the same pixels are the same grid. -/
theorem FrameBuffer.ext_pixel {fb fb' : FrameBuffer}
    (h : ∀ cx < Config.width, ∀ cy < Config.height, fb.pixel cx cy = fb'.pixel cx cy) : fb = fb' := by
  refine Vector.ext fun cy hy => Vector.ext fun cx hx => ?_
  have := h cx hx cy hy
  simpa [FrameBuffer.pixel, Nat.mod_eq_of_lt hx, Nat.mod_eq_of_lt hy] using this

@[simp] theorem Display.pixel_clear (d : Display) (px py : Nat) : d.clear.fb.pixel px py = false := by
  simp [Display.clear, FrameBuffer.pixel]

@[simp] theorem Display.dirty_clear (d : Display) : d.clear.dirty = true := rfl

/-- What one sprite bit does to a pixel and to the collision. -/
theorem Display.pixel_plot (acc : Display × Bool) (bit : Bool) (px py cx cy : Nat) :
    (Display.plot acc bit px py).1.fb.pixel cx cy =
      if bit = true ∧ cx % Config.width = px % Config.width ∧ cy % Config.height = py % Config.height then
        !acc.1.fb.pixel px py
      else acc.1.fb.pixel cx cy := by
  cases bit <;> simp [Display.plot, Display.togglePixel, FrameBuffer.pixel_flip]

theorem Display.hit_plot (acc : Display × Bool) (bit : Bool) (px py : Nat) :
    (Display.plot acc bit px py).2 = (acc.2 || (bit && acc.1.fb.pixel px py)) := by
  cases bit <;> simp [Display.plot, Display.togglePixel]

end Sys2Proof.Machine
end

