-- ==== Sys2Proof/Laws/Ops.lean ====
section
/-! SUPPORT. One lemma for each shared operation that says what it does: the endings of the register instructions, flags, operand forms, the stack, the sprite, and the memory of a state. -/

namespace Sys2Proof.Machine

/-! ## Endings of the register instructions -/

theorem State.getV_finish (s : State) (x r : Reg) (b : Byte) :
    (s.finish x b).getV r = if r = x then b else s.getV r := by
  simp only [State.finish, State.getV_advance, State.getV_setV]

theorem State.getV_finishFlagFirst (s : State) (x r : Reg) (b f : Byte) :
    (s.finishFlagFirst x b f).getV r = if r = x then b else if r = Reg.vf then f else s.getV r := by
  simp only [State.finishFlagFirst, State.getV_advance, State.getV_setV]

theorem State.getV_finishFlagLast (s : State) (x r : Reg) (b f : Byte) :
    (s.finishFlagLast x b f).getV r = if r = Reg.vf then f else if r = x then b else s.getV r := by
  simp only [State.finishFlagLast, State.getV_advance, State.getV_setV]

/-! ## Flags and operands as numbers -/

theorem flagOf_toNat (c : Bool) : (flagOf c).toNat = if c then 1 else 0 := by cases c <;> rfl

@[simp] theorem wordOfAddr_toNat (a : Addr12) : (wordOfAddr a).toNat = a.toNat := by
  have := a.isLt
  simp only [wordOfAddr, BitVec.truncate_eq_setWidth, BitVec.toNat_setWidth]; omega

@[simp] theorem wordOfByte_toNat (b : Byte) : (wordOfByte b).toNat = b.toNat := by
  have := b.isLt
  simp only [wordOfByte, BitVec.truncate_eq_setWidth, BitVec.toNat_setWidth]; omega

@[simp] theorem byteOfKey_toNat (k : Key) : (byteOfKey k).toNat = k.val := by
  simp only [byteOfKey, BitVec.toNat_ofNat]; omega

@[simp] theorem glyphAddress_toNat (a : Byte) : (glyphAddress a).toNat = a.toNat * 5 := by
  have := a.isLt
  simp only [glyphAddress, BitVec.toNat_ofNat, Config.glyphLen]; omega

theorem keyHeld_iff (inp : StepInput) (a : Byte) :
    keyHeld inp a = true ↔ ∃ k ∈ inp.keysHeld, k.val = a.toNat := by
  simp [keyHeld]

@[simp] theorem length_bcdDigits (a : Byte) : (bcdDigits a).length = 3 := rfl

theorem State.length_regBlock (s : State) (x : Reg) : (s.regBlock x).length = x.val + 1 := by
  have := x.isLt
  simp only [State.regBlock, List.length_take, Vector.length_toList]; omega

theorem State.getElem_regBlock (s : State) (x : Reg) (k : Nat) (hk : k < (s.regBlock x).length) :
    (s.regBlock x)[k] = s.getV ⟨k, by have := s.length_regBlock x; omega⟩ := by
  simp [State.regBlock, State.getV]

theorem State.getElem_loadRegBlock (s : State) (x r : Reg) (addr : Nat) :
    (s.loadRegBlock x addr)[r.val] = if r ≤ x then s.memRead (addr + r.val) else s.getV r := by
  simp [State.loadRegBlock]

theorem timerDec_toNat (b : Byte) : (timerDec b).toNat = b.toNat - 1 := by
  unfold timerDec
  split
  · rename_i h; simp [h]
  · rename_i h
    have : b.toNat ≠ 0 := fun e => h (BitVec.eq_of_toNat_eq (by simpa using e))
    have hb := b.isLt
    have h1 : (1 : Byte).toNat = 1 := rfl
    rw [BitVec.toNat_sub, h1]; omega

/-! ## Memory of a state -/

theorem State.memRead_memWrite_out (s : State) (addr a' : Nat) (bs : List Byte)
    (h : ∀ j < bs.length, a' % Config.memSize ≠ (addr + j) % Config.memSize) :
    (s.memWrite addr bs).memRead a' = s.memRead a' := Memory.load_storeBlock_out s.mem addr a' bs h

theorem State.memRead_memWrite_in {s : State} (addr k : Nat) (bs : List Byte) (hm : s.mem.wf = true)
    (hlen : bs.length ≤ Config.memSize) (hk : k < bs.length) :
    (s.memWrite addr bs).memRead (addr + k) = bs[k] := Memory.load_storeBlock_in addr k bs hm hlen hk

theorem State.memRead_congr (s : State) {a a' : Nat} (h : a % Config.memSize = a' % Config.memSize) :
    s.memRead a = s.memRead a' := Memory.load_congr s.mem h

/-! ## The sprite -/

/-- One of the first `k` columns of the sprite row `b` at (`px`, `py`) lands on the pixel (`cx`, `cy`). -/
def rowHits (b : Byte) (px py k cx cy : Nat) : Prop :=
  ∃ c < k, b.getLsbD (7 - c) = true ∧ cx % Config.width = (px + c) % Config.width ∧
    cy % Config.height = py % Config.height

theorem rowHits_succ (b : Byte) (px py k cx cy : Nat) :
    rowHits b px py (k + 1) cx cy ↔
      rowHits b px py k cx cy ∨ (b.getLsbD (7 - k) = true ∧ cx % Config.width = (px + k) % Config.width ∧
        cy % Config.height = py % Config.height) := by
  constructor
  · rintro ⟨c, hc, h⟩
    rcases Nat.lt_succ_iff_lt_or_eq.1 hc with h' | rfl
    · exact .inl ⟨c, h', h⟩
    · exact .inr h
  · rintro (⟨c, hc, h⟩ | h)
    · exact ⟨c, by omega, h⟩
    · exact ⟨k, by omega, h⟩

/-- A row turns exactly the pixels its bits land on, at most 8 columns, and collides where one of them was on (R165). -/
theorem Display.drawRow_spec (acc : Display × Bool) (b : Byte) (px py k : Nat) (hk : k ≤ 8) :
    (∀ cx cy, (Display.drawRow acc b px py k).1.fb.pixel cx cy = true ↔
      (acc.1.fb.pixel cx cy = true ↔ ¬ rowHits b px py k cx cy)) ∧
    ((Display.drawRow acc b px py k).2 = true ↔
      acc.2 = true ∨ ∃ cx cy, rowHits b px py k cx cy ∧ acc.1.fb.pixel cx cy = true) := by
  induction k with
  | zero => simp [Display.drawRow, rowHits]
  | succ k ih =>
    obtain ⟨hp, hh⟩ := ih (by omega)
    have fresh : ∀ cx cy, cx % Config.width = (px + k) % Config.width → ¬ rowHits b px py k cx cy := by
      rintro cx cy h ⟨c, hc, -, h', -⟩
      simp only [Config.width] at h h'
      omega
    constructor
    · intro cx cy
      rw [Display.drawRow, Display.pixel_plot, rowHits_succ]
      split
      · rename_i h
        have hn := fresh cx cy h.2.1
        have e : (Display.drawRow acc b px py k).1.fb.pixel (px + k) py =
            (Display.drawRow acc b px py k).1.fb.pixel cx cy := by
          rw [← FrameBuffer.pixel_mod _ (px + k), ← h.2.1, ← h.2.2, FrameBuffer.pixel_mod]
        rw [e, Bool.not_eq_true', ← Bool.not_eq_true, hp]
        simp [hn, h]
      · rename_i h
        rw [hp]
        simp only [h, or_false]
    · rw [Display.drawRow, Display.hit_plot, Bool.or_eq_true, Bool.and_eq_true, hh]
      have hq := hp (px + k) py
      have hn := fresh (px + k) py rfl
      simp only [hn, not_false_eq_true, iff_true] at hq
      rw [hq]
      constructor
      · rintro ((h | ⟨cx, cy, h⟩) | h)
        · exact .inl h
        · exact .inr ⟨cx, cy, (rowHits_succ ..).2 (.inl h.1), h.2⟩
        · exact .inr ⟨px + k, py, (rowHits_succ ..).2 (.inr ⟨h.1, rfl, rfl⟩), h.2⟩
      · rintro (h | ⟨cx, cy, h, h'⟩)
        · exact .inl (.inl h)
        · rcases (rowHits_succ ..).1 h with h | h
          · exact .inl (.inr ⟨cx, cy, h, h'⟩)
          · refine .inr ⟨h.1, ?_⟩
            rw [← FrameBuffer.pixel_mod, ← h.2.1, ← h.2.2, FrameBuffer.pixel_mod]; exact h'

/-- One of the rows `bs` at (`px`, `py`) downward lands on the pixel (`cx`, `cy`). -/
def rowsHit (bs : List Byte) (px py cx cy : Nat) : Prop :=
  ∃ r, ∃ h : r < bs.length, rowHits bs[r] px (py + r) 8 cx cy

theorem rowsHit_cons (b : Byte) (bs : List Byte) (px py cx cy : Nat) :
    rowsHit (b :: bs) px py cx cy ↔ rowHits b px py 8 cx cy ∨ rowsHit bs px (py + 1) cx cy := by
  constructor
  · rintro ⟨r, hr, h⟩
    cases r with
    | zero => exact .inl h
    | succ r => exact .inr ⟨r, by simpa using hr, by simpa [show py + 1 + r = py + (r + 1) by omega] using h⟩
  · rintro (h | ⟨r, hr, h⟩)
    · exact ⟨0, by simp, h⟩
    · exact ⟨r + 1, by simpa using hr, by simpa [show py + 1 + r = py + (r + 1) by omega] using h⟩

/-- A sprite of at most `HEIGHT` rows turns exactly the pixels it lands on and collides where one of them was on (R165 (g)). -/
theorem Display.drawRows_spec (bs : List Byte) (acc : Display × Bool) (px py : Nat) (hn : bs.length ≤ Config.height) :
    (∀ cx cy, (Display.drawRows acc bs px py).1.fb.pixel cx cy = true ↔
      (acc.1.fb.pixel cx cy = true ↔ ¬ rowsHit bs px py cx cy)) ∧
    ((Display.drawRows acc bs px py).2 = true ↔
      acc.2 = true ∨ ∃ cx cy, rowsHit bs px py cx cy ∧ acc.1.fb.pixel cx cy = true) := by
  induction bs generalizing acc py with
  | nil => simp [Display.drawRows, rowsHit]
  | cons b bs ih =>
    simp only [List.length_cons] at hn
    obtain ⟨rp, rh⟩ := Display.drawRow_spec acc b px py 8 (Nat.le_refl 8)
    obtain ⟨hp, hh⟩ := ih (Display.drawRow acc b px py 8) (py + 1) (by omega)
    have apart : ∀ cx cy, rowHits b px py 8 cx cy → ¬ rowsHit bs px (py + 1) cx cy := by
      rintro cx cy ⟨_, _, _, _, h1⟩ ⟨r, hr, _, _, _, _, h2⟩
      simp only [Config.height] at h1 h2 hn
      omega
    rw [Display.drawRows]
    constructor
    · intro cx cy
      rw [hp, rp, rowsHit_cons]
      by_cases h : rowHits b px py 8 cx cy
      · simp [h, apart cx cy h]
      · simp [h]
    · rw [hh, rh]
      constructor
      · rintro ((h | ⟨cx, cy, h, h'⟩) | ⟨cx, cy, h, h'⟩)
        · exact .inl h
        · exact .inr ⟨cx, cy, (rowsHit_cons ..).2 (.inl h), h'⟩
        · refine .inr ⟨cx, cy, (rowsHit_cons ..).2 (.inr h), ?_⟩
          exact ((rp cx cy).1 h').2 fun q => apart cx cy q h
      · rintro (h | ⟨cx, cy, h, h'⟩)
        · exact .inl (.inl h)
        · rcases (rowsHit_cons ..).1 h with h | h
          · exact .inl (.inr ⟨cx, cy, h, h'⟩)
          · exact .inr ⟨cx, cy, h, (rp cx cy).2 ⟨fun _ q => apart cx cy q h, fun _ => h'⟩⟩

end Sys2Proof.Machine
end

