-- ==== Sys2Proof/Laws/PerInstr.lean ====
section
/-! SUPPORT. The family MatchesRow: the opcode of every instruction selects its own row of the opcode map (30_encoding R76). -/

namespace Sys2Proof.Laws.MatchesRow

/-- The encoded instruction, masked by its row's mask, is its row's pattern. -/
def Statement (ins : Instr) : Prop :=
  ∃ row ∈ opcodeMap, row.mnemonic = ins.mnemonic ∧ encode ins &&& row.mask = row.pattern

/-- Masking a concatenation masks its parts. -/
theorem and_concat {k m : Nat} {a c r : BitVec k} {b d q : BitVec m} (h : a &&& c = r) (h' : b &&& d = q) :
    (a ++ b) &&& (c ++ d) = r ++ q := by
  rw [BitVec.and_append, h, h']

theorem mask_encodeA (f : BitVec 4) (a : Addr12) : encodeA f a &&& 0xF000 = encodeA f 0 :=
  and_concat (c := 0xF#4) (d := 0#12) BitVec.and_allOnes BitVec.and_zero

theorem mask_encodeXK (f : BitVec 4) (x : Reg) (k : Byte) : encodeXK f x k &&& 0xF000 = encodeXK f 0 0 :=
  and_concat (c := 0xF#4 ++ 0#4) (d := 0#8) (and_concat BitVec.and_allOnes BitVec.and_zero) BitVec.and_zero

theorem mask_encodeX (f : BitVec 4) (x : Reg) (k : Byte) : encodeXK f x k &&& 0xF0FF = encodeXK f 0 k :=
  and_concat (c := 0xF#4 ++ 0#4) (d := 0xFF#8) (and_concat BitVec.and_allOnes BitVec.and_zero) BitVec.and_allOnes

theorem mask_encodeXY (f : BitVec 4) (x y : Reg) (n : BitVec 4) :
    encodeXYN f x y n &&& 0xF00F = encodeXYN f 0 0 n :=
  and_concat (c := 0xF#4 ++ 0#4) (d := 0#4 ++ 0xF#4) (and_concat BitVec.and_allOnes BitVec.and_zero)
    (and_concat BitVec.and_zero BitVec.and_allOnes)

theorem mask_encodeXYN (f : BitVec 4) (x y : Reg) (n : BitVec 4) :
    encodeXYN f x y n &&& 0xF000 = encodeXYN f 0 0 0 :=
  and_concat (c := 0xF#4 ++ 0#4) (d := 0#4 ++ 0#4) (and_concat BitVec.and_allOnes BitVec.and_zero)
    (and_concat BitVec.and_zero BitVec.and_zero)


theorem cls : Statement .cls :=
  ⟨⟨"CLS", 0x00E0, 0xFFFF⟩, by decide, rfl, rfl⟩

theorem ret : Statement .ret :=
  ⟨⟨"RET", 0x00EE, 0xFFFF⟩, by decide, rfl, rfl⟩

theorem jp (nnn : Addr12) : Statement (.jp nnn) :=
  ⟨⟨"JP", 0x1000, 0xF000⟩, by decide, rfl, mask_encodeA _ _⟩

theorem call (nnn : Addr12) : Statement (.call nnn) :=
  ⟨⟨"CALL", 0x2000, 0xF000⟩, by decide, rfl, mask_encodeA _ _⟩

theorem seImm (x : Reg) (kk : Byte) : Statement (.seImm x kk) :=
  ⟨⟨"SE_IMM", 0x3000, 0xF000⟩, by decide, rfl, mask_encodeXK _ _ _⟩

theorem sneImm (x : Reg) (kk : Byte) : Statement (.sneImm x kk) :=
  ⟨⟨"SNE_IMM", 0x4000, 0xF000⟩, by decide, rfl, mask_encodeXK _ _ _⟩

theorem seReg (x y : Reg) : Statement (.seReg x y) :=
  ⟨⟨"SE_REG", 0x5000, 0xF00F⟩, by decide, rfl, mask_encodeXY _ _ _ _⟩

theorem ldImm (x : Reg) (kk : Byte) : Statement (.ldImm x kk) :=
  ⟨⟨"LD_IMM", 0x6000, 0xF000⟩, by decide, rfl, mask_encodeXK _ _ _⟩

theorem addImm (x : Reg) (kk : Byte) : Statement (.addImm x kk) :=
  ⟨⟨"ADD_IMM", 0x7000, 0xF000⟩, by decide, rfl, mask_encodeXK _ _ _⟩

theorem ldReg (x y : Reg) : Statement (.ldReg x y) :=
  ⟨⟨"LD_REG", 0x8000, 0xF00F⟩, by decide, rfl, mask_encodeXY _ _ _ _⟩

theorem or (x y : Reg) : Statement (.or x y) :=
  ⟨⟨"OR", 0x8001, 0xF00F⟩, by decide, rfl, mask_encodeXY _ _ _ _⟩

theorem and (x y : Reg) : Statement (.and x y) :=
  ⟨⟨"AND", 0x8002, 0xF00F⟩, by decide, rfl, mask_encodeXY _ _ _ _⟩

theorem xor (x y : Reg) : Statement (.xor x y) :=
  ⟨⟨"XOR", 0x8003, 0xF00F⟩, by decide, rfl, mask_encodeXY _ _ _ _⟩

theorem addReg (x y : Reg) : Statement (.addReg x y) :=
  ⟨⟨"ADD_REG", 0x8004, 0xF00F⟩, by decide, rfl, mask_encodeXY _ _ _ _⟩

theorem sub (x y : Reg) : Statement (.sub x y) :=
  ⟨⟨"SUB", 0x8005, 0xF00F⟩, by decide, rfl, mask_encodeXY _ _ _ _⟩

theorem shr (x y : Reg) : Statement (.shr x y) :=
  ⟨⟨"SHR", 0x8006, 0xF00F⟩, by decide, rfl, mask_encodeXY _ _ _ _⟩

theorem subn (x y : Reg) : Statement (.subn x y) :=
  ⟨⟨"SUBN", 0x8007, 0xF00F⟩, by decide, rfl, mask_encodeXY _ _ _ _⟩

theorem shl (x y : Reg) : Statement (.shl x y) :=
  ⟨⟨"SHL", 0x800E, 0xF00F⟩, by decide, rfl, mask_encodeXY _ _ _ _⟩

theorem sneReg (x y : Reg) : Statement (.sneReg x y) :=
  ⟨⟨"SNE_REG", 0x9000, 0xF00F⟩, by decide, rfl, mask_encodeXY _ _ _ _⟩

theorem ldI (nnn : Addr12) : Statement (.ldI nnn) :=
  ⟨⟨"LD_I", 0xA000, 0xF000⟩, by decide, rfl, mask_encodeA _ _⟩

theorem jpV0 (nnn : Addr12) : Statement (.jpV0 nnn) :=
  ⟨⟨"JP_V0", 0xB000, 0xF000⟩, by decide, rfl, mask_encodeA _ _⟩

theorem rnd (x : Reg) (kk : Byte) : Statement (.rnd x kk) :=
  ⟨⟨"RND", 0xC000, 0xF000⟩, by decide, rfl, mask_encodeXK _ _ _⟩

theorem drw (x y : Reg) (n : Nat) : Statement (.drw x y n) :=
  ⟨⟨"DRW", 0xD000, 0xF000⟩, by decide, rfl, mask_encodeXYN _ _ _ _⟩

theorem skp (x : Reg) : Statement (.skp x) :=
  ⟨⟨"SKP", 0xE09E, 0xF0FF⟩, by decide, rfl, mask_encodeX _ _ _⟩

theorem sknp (x : Reg) : Statement (.sknp x) :=
  ⟨⟨"SKNP", 0xE0A1, 0xF0FF⟩, by decide, rfl, mask_encodeX _ _ _⟩

theorem ldVxDt (x : Reg) : Statement (.ldVxDt x) :=
  ⟨⟨"LD_VX_DT", 0xF007, 0xF0FF⟩, by decide, rfl, mask_encodeX _ _ _⟩

theorem ldVxK (x : Reg) : Statement (.ldVxK x) :=
  ⟨⟨"LD_VX_K", 0xF00A, 0xF0FF⟩, by decide, rfl, mask_encodeX _ _ _⟩

theorem ldDtVx (x : Reg) : Statement (.ldDtVx x) :=
  ⟨⟨"LD_DT_VX", 0xF015, 0xF0FF⟩, by decide, rfl, mask_encodeX _ _ _⟩

theorem ldStVx (x : Reg) : Statement (.ldStVx x) :=
  ⟨⟨"LD_ST_VX", 0xF018, 0xF0FF⟩, by decide, rfl, mask_encodeX _ _ _⟩

theorem addI (x : Reg) : Statement (.addI x) :=
  ⟨⟨"ADD_I", 0xF01E, 0xF0FF⟩, by decide, rfl, mask_encodeX _ _ _⟩

theorem ldF (x : Reg) : Statement (.ldF x) :=
  ⟨⟨"LD_F", 0xF029, 0xF0FF⟩, by decide, rfl, mask_encodeX _ _ _⟩

theorem ldB (x : Reg) : Statement (.ldB x) :=
  ⟨⟨"LD_B", 0xF033, 0xF0FF⟩, by decide, rfl, mask_encodeX _ _ _⟩

theorem stRegs (x : Reg) : Statement (.stRegs x) :=
  ⟨⟨"ST_REGS", 0xF055, 0xF0FF⟩, by decide, rfl, mask_encodeX _ _ _⟩

theorem ldRegs (x : Reg) : Statement (.ldRegs x) :=
  ⟨⟨"LD_REGS", 0xF065, 0xF0FF⟩, by decide, rfl, mask_encodeX _ _ _⟩

end Sys2Proof.Laws.MatchesRow
end

