-- ==== Sys2Proof/Laws/Step.lean ====
section
/-! SUPPORT. What a step can do, said once: which event it is, and what the engine does in a `Step`. -/

namespace Sys2Proof.Machine

/-- Every meaning answers a next state. -/
theorem exec_next (ins : Instr) (s : State) : ∃ t, exec ins s = .next t := by
  cases ins <;> exact ⟨_, rfl⟩

/-- What Fx33 does, with its three bytes under a name: a proof that unfolds them makes Lean compare whole memories. -/
theorem execLdB_next {x : Reg} {s t : State} (h : execLdB x s = .next t) :
    ∃ bs : List Byte, bs = bcdDigits (s.getV x) ∧ bs.length = 3 ∧ t = (s.memWrite s.i.toNat bs).advance := by
  simp only [execLdB, Host.Outcome.next.injEq] at h
  exact ⟨_, rfl, rfl, h.symm⟩

/-- Fx33 answers a next state, with its three bytes under a name. -/
theorem execLdB_eq (x : Reg) (s : State) :
    ∃ bs : List Byte, bs = bcdDigits (s.getV x) ∧ bs.length = 3 ∧
      execLdB x s = .next (s.memWrite s.i.toNat bs).advance := ⟨_, rfl, rfl, rfl⟩

/-! ## What an instruction can change, said once -/

/-- The instructions that write nothing but `pc`: jumps and skips. -/
def jumpsOrSkips : Instr → Bool
  | .jp _ | .jpV0 _ | .seImm _ _ | .sneImm _ _ | .seReg _ _ | .sneReg _ _ | .skp _ | .sknp _ => true
  | _ => false

/-- The instructions that write general registers and `pc` only. -/
def writesRegsOnly : Instr → Bool
  | .ldImm _ _ | .addImm _ _ | .ldReg _ _ | .or _ _ | .and _ _ | .xor _ _ | .addReg _ _ | .sub _ _ | .shr _ _
  | .subn _ _ | .shl _ _ | .rnd _ _ | .ldVxDt _ | .ldVxK _ => true
  | _ => false

/-- What an instruction that answers `t` changed, by its shape: every field not named is as before. -/
inductive Changed (s t : State) : Instr → Prop where
  | jumpOrSkip {ins} (h : jumpsOrSkips ins = true) (e : t = { s with pc := t.pc }) : Changed s t ins
  | register {ins} (h : writesRegsOnly ins = true) (e : t = { s with v := t.v, pc := t.pc }) : Changed s t ins
  | ret (h : 0 < s.sp.val) (e : t = s.drop.setPc (s.top h)) : Changed s t .ret
  | call {nnn} (h : s.sp.val < Config.stackDepth) (e : t = (s.push s.npc h).setPc (wordOfAddr nnn)) : Changed s t (.call nnn)
  | underflow (h : s.sp.val = 0) (e : t = s.raise .stackUnderflow (encode .ret)) : Changed s t .ret
  | overflow {nnn} (h : s.sp.val = 16) (e : t = s.raise .stackOverflow (encode (.call nnn))) : Changed s t (.call nnn)
  | ldI {nnn} (e : t = (s.setI (wordOfAddr nnn)).advance) : Changed s t (.ldI nnn)
  | addI {x} (e : t = (s.setI (s.i + wordOfByte (s.getV x))).advance) : Changed s t (.addI x)
  | ldF {x} (e : t = (s.setI (glyphAddress (s.getV x))).advance) : Changed s t (.ldF x)
  | ldB {x} (bs : List Byte) (hb : bs = bcdDigits (s.getV x)) (e : t = (s.memWrite s.i.toNat bs).advance) : Changed s t (.ldB x)
  | stRegs {x} (e : t = ((s.memWrite s.i.toNat (s.regBlock x)).setI (s.blockEndI x)).advance) : Changed s t (.stRegs x)
  | ldRegs {x} (e : t = ((s.setRegs (s.loadRegBlock x s.i.toNat)).setI (s.blockEndI x)).advance) : Changed s t (.ldRegs x)
  | cls (e : t = (s.setDisplay s.display.clear).advance) : Changed s t .cls
  | drw {x y n} (d : Display × Bool) (hd : d = s.drawSprite x y n)
      (e : t = ((s.setDisplay { d.1 with dirty := true }).setV Reg.vf (flagCollision d.2)).advance) : Changed s t (.drw x y n)
  | ldDtVx {x} (e : t = (s.setDt (s.getV x)).advance) : Changed s t (.ldDtVx x)
  | ldStVx {x} (e : t = (s.setSt (s.getV x)).advance) : Changed s t (.ldStVx x)

theorem State.finish_changes (s : State) (x : Reg) (b : Byte) :
    s.finish x b = { s with v := (s.finish x b).v, pc := (s.finish x b).pc } := rfl

theorem State.finishFlagFirst_changes (s : State) (x : Reg) (b f : Byte) :
    s.finishFlagFirst x b f = { s with v := (s.finishFlagFirst x b f).v, pc := (s.finishFlagFirst x b f).pc } := rfl

theorem State.finishFlagLast_changes (s : State) (x : Reg) (b f : Byte) :
    s.finishFlagLast x b f = { s with v := (s.finishFlagLast x b f).v, pc := (s.finishFlagLast x b f).pc } := rfl

/-- Every meaning changes what its shape says and nothing else. -/
theorem exec_changed {ins : Instr} {s t : State} (h : exec ins s = .next t) : Changed s t ins := by
  cases ins with
  | cls => exact .cls (Host.Outcome.next.inj h).symm
  | ret =>
    have e := (Host.Outcome.next.inj h).symm
    split at e
    · exact .ret _ e
    · exact .underflow (by omega) e
  | jp nnn => exact .jumpOrSkip rfl (Host.Outcome.next.inj h ▸ rfl)
  | call nnn =>
    have e := (Host.Outcome.next.inj h).symm
    split at e
    · exact .call _ e
    · rename_i hn; exact .overflow (by have := s.sp.isLt; simp only [Config.stackDepth] at hn; omega) e
  | seImm x kk => exact .jumpOrSkip rfl (Host.Outcome.next.inj h ▸ rfl)
  | sneImm x kk => exact .jumpOrSkip rfl (Host.Outcome.next.inj h ▸ rfl)
  | seReg x y => exact .jumpOrSkip rfl (Host.Outcome.next.inj h ▸ rfl)
  | ldImm x kk => exact .register rfl (Host.Outcome.next.inj h ▸ s.finish_changes x _)
  | addImm x kk => exact .register rfl (Host.Outcome.next.inj h ▸ s.finish_changes x _)
  | ldReg x y => exact .register rfl (Host.Outcome.next.inj h ▸ s.finish_changes x _)
  | or x y => exact .register rfl (Host.Outcome.next.inj h ▸ s.finish_changes x _)
  | and x y => exact .register rfl (Host.Outcome.next.inj h ▸ s.finish_changes x _)
  | xor x y => exact .register rfl (Host.Outcome.next.inj h ▸ s.finish_changes x _)
  | addReg x y => exact .register rfl (Host.Outcome.next.inj h ▸ s.finishFlagFirst_changes x _ _)
  | sub x y => exact .register rfl (Host.Outcome.next.inj h ▸ s.finishFlagFirst_changes x _ _)
  | shr x y => exact .register rfl (Host.Outcome.next.inj h ▸ s.finishFlagLast_changes x _ _)
  | subn x y => exact .register rfl (Host.Outcome.next.inj h ▸ s.finishFlagFirst_changes x _ _)
  | shl x y => exact .register rfl (Host.Outcome.next.inj h ▸ s.finishFlagLast_changes x _ _)
  | sneReg x y => exact .jumpOrSkip rfl (Host.Outcome.next.inj h ▸ rfl)
  | ldI nnn => exact .ldI (Host.Outcome.next.inj h).symm
  | jpV0 nnn => exact .jumpOrSkip rfl (Host.Outcome.next.inj h ▸ rfl)
  | rnd x kk => exact .register rfl (Host.Outcome.next.inj h ▸ s.finish_changes x _)
  | drw x y n => exact .drw _ rfl (Host.Outcome.next.inj h).symm
  | skp x => exact .jumpOrSkip rfl (Host.Outcome.next.inj h ▸ rfl)
  | sknp x => exact .jumpOrSkip rfl (Host.Outcome.next.inj h ▸ rfl)
  | ldVxDt x => exact .register rfl (Host.Outcome.next.inj h ▸ s.finish_changes x _)
  | ldVxK x =>
    have e := (Host.Outcome.next.inj h).symm
    split at e
    · exact .register rfl (e ▸ rfl)
    · exact .register rfl (e ▸ s.finish_changes x _)
  | ldDtVx x => exact .ldDtVx (Host.Outcome.next.inj h).symm
  | ldStVx x => exact .ldStVx (Host.Outcome.next.inj h).symm
  | addI x => exact .addI (Host.Outcome.next.inj h).symm
  | ldF x => exact .ldF (Host.Outcome.next.inj h).symm
  | ldB x =>
    obtain ⟨bs, hb, -, e⟩ := execLdB_next h
    exact .ldB bs hb e
  | stRegs x => exact .stRegs (Host.Outcome.next.inj h).symm
  | ldRegs x => exact .ldRegs (Host.Outcome.next.inj h).symm

theorem State.input_of_nextEvent {s : State} {inp : StepInput} (h : s.nextEvent = .step inp) : s.input = inp := by
  unfold State.nextEvent at h
  unfold State.input
  split at h
  · rename_i e; rw [e]; simpa using h
  · rename_i e; rw [e, h]

theorem onNext_eq_next {f : State → State} {o : Host.Outcome State Fault Refusal} {t : State}
    (h : onNext f o = .next t) : ∃ u, o = .next u ∧ t = f u := by
  cases o with
  | next u => exact ⟨u, rfl, by simpa [onNext] using h.symm⟩
  | fault r => simp [onNext] at h
  | refused r => simp [onNext] at h

/-- What the engine does in a `Step` (R74): nothing while halted, the decoded instruction, or `UnknownOpcode`. -/
theorem engineCore_cases {s t : State} (h : engineCore s = .next t) :
    (s.fault.cause ≠ .none ∧ t = s) ∨
    (s.fault.cause = .none ∧ ∃ ins, decodeWord s.fetchWord = .ok ins ∧ exec ins s = .next t) ∨
    (s.fault.cause = .none ∧ (∃ e, decodeWord s.fetchWord = .error e) ∧ t = s.raise .unknownOpcode s.fetchWord) := by
  unfold engineCore at h
  split at h
  · rename_i hh
    exact .inl ⟨by simpa [State.halted] using hh, by simpa using h.symm⟩
  · rename_i hh
    have hc : s.fault.cause = .none := by simpa [State.halted] using hh
    split at h
    · exact .inr (.inl ⟨hc, _, ‹_›, h⟩)
    · exact .inr (.inr ⟨hc, ⟨_, ‹_›⟩, by simpa using h.symm⟩)

theorem hostLoad_cases {s t : State} {image : List Byte} (h : hostLoad image s = .next t) :
    s.loadable = true ∧ image.length ≤ Config.maxImage ∧ t = s.loadProgram image := by
  unfold hostLoad at h
  split at h
  · split at h
    · exact ⟨‹_›, ‹_›, by simpa using h.symm⟩
    · simp at h
  · simp at h

/-- What a step that answers a next state is: one of the eight events, with what it did (R7). -/
theorem step_cases {s t : State} (h : step s = .next t) :
    (∃ inp u, s.nextEvent = .step inp ∧ engineCore s = .next u ∧ t = u.stepDone) ∨
    (s.nextEvent = .tick ∧ t = s.popEvent.tick) ∨
    (s.nextEvent = .reset ∧ t = s.popEvent.hostReset) ∨
    (∃ image, s.nextEvent = .loadProgram image ∧ s.loadable = true ∧ image.length ≤ Config.maxImage ∧
      t = s.popEvent.loadProgram image) ∨
    (s.nextEvent = .takeDirty ∧ t = s.popEvent.hostTakeDirty) ∨
    (s.nextEvent = .readGrid ∧ t = s.popEvent.hostReadGrid) ∨
    (s.nextEvent = .dump ∧ t = s.popEvent.hostDump) ∨
    (s.nextEvent = .readFault ∧ t = s.popEvent.hostReadFault) := by
  unfold step at h
  split at h
  · obtain ⟨u, hu, rfl⟩ := onNext_eq_next h
    exact .inl ⟨_, u, ‹_›, hu, rfl⟩
  · exact .inr (.inl ⟨‹_›, by simpa using h.symm⟩)
  · exact .inr (.inr (.inl ⟨‹_›, by simpa using h.symm⟩))
  · obtain ⟨h1, h2, h3⟩ := hostLoad_cases h
    exact .inr (.inr (.inr (.inl ⟨_, ‹_›, h1, h2, h3⟩)))
  · exact .inr (.inr (.inr (.inr (.inl ⟨‹_›, by simpa using h.symm⟩))))
  · exact .inr (.inr (.inr (.inr (.inr (.inl ⟨‹_›, by simpa using h.symm⟩)))))
  · exact .inr (.inr (.inr (.inr (.inr (.inr (.inl ⟨‹_›, by simpa using h.symm⟩))))))
  · exact .inr (.inr (.inr (.inr (.inr (.inr (.inr ⟨‹_›, by simpa using h.symm⟩))))))

/-! ## `Tick` -/

theorem State.tick_eq (s : State) :
    s.tick = { s with dt := timerDec s.dt, st := timerDec s.st, out := if s.st = 0 then s.out else s.out ++ [.tone] } := by
  unfold State.tick State.emit
  split <;> simp [*]

/-! ## `Reset` -/

/-- What `Reset` does, with the memory it leaves under a name: a proof that unfolds the 80 stores makes Lean compare whole memories (R230). -/
theorem State.hostReset_eq (s : State) : ∃ m : Memory, m = s.mem.loadFont ∧ s.hostReset = { s with
    v := Vector.replicate 16 0, i := 0, pc := BitVec.ofNat 16 Config.loadOffset, sp := 0, dt := 0, st := 0,
    mem := m, display := s.display.clear, fault := ⟨.none, s.fault.opcode⟩, loadable := true } :=
  ⟨_, rfl, rfl⟩

/-- What `load_program` does, with the memory it leaves under a name (R63). -/
theorem State.loadProgram_eq (s : State) (image : List Byte) : ∃ m : Memory, m = s.mem.storeBlock Config.loadOffset image ∧
    s.loadProgram image = { s with mem := m, loadable := false } := ⟨_, rfl, rfl⟩

end Sys2Proof.Machine
end

