-- ==== Sys2Proof/Tests/Slice0.lean ====
section
/-! SUPPORT. Tests: the well-formedness smoke, one word per instruction written out bit by bit from the opcode map (R76), single steps with the results of spec/95_test_vectors.md (a vector's name stands in the comment), and for every statement with hypotheses a state and operands that meet them. -/

namespace Sys2Proof.Tests

open Sys2Proof.Machine

/-! ## Helpers -/

/-- Both quirks off, as the vectors have them. -/
def off : Quirks := ⟨false, false⟩

/-- Both quirks on. -/
def on : Quirks := ⟨true, true⟩

/-- No key held, no key-down, random byte 0. -/
def idle : StepInput := ⟨[], none, 0⟩

/-- The state after the power-on reset with a quirk setting. -/
def start (q : Quirks) : State := { State.reset with quirks := q }

/-- The vectors' start state. -/
abbrev s0 : State := start off

/-- The state with the queue of events given. -/
def withEvents (s : State) (es : List Event) : State := { s with events := es }

/-- The state with its dirty flag cleared. -/
def clean (s : State) : State := { s with display := { s.display with dirty := false } }

/-- The state with a stack of depth `d` of which every entry is `a`. -/
def deep (s : State) (d : Fin 17) (a : Word) : State := { s with sp := d, stack := Vector.replicate 16 a }

/-- The state a step answers. -/
def stepped (s : State) : Option State :=
  match step s with
  | .next t => some t
  | .fault _ => none
  | .refused _ => none

/-- One `Step` on an opcode placed at `pc`, with the inputs given. -/
def runWith (inp : StepInput) (s : State) (op : Word) : Option State :=
  stepped (withEvents (s.memWrite s.pc.toNat (opBytes op)) [.step inp])

/-- One `Step` on an opcode placed at `pc`, with the inputs of the vectors. -/
def run (s : State) (op : Word) : Option State := runWith idle s op

/-- The pixels that are on, in the first `w` columns and `h` rows. -/
def lit (t : State) (w h : Nat) : List (Nat × Nat) :=
  (List.range h).flatMap fun cy => (List.range w).filterMap fun cx => if t.display.fb.pixel cx cy then some (cx, cy) else none

/-- The state with one row of bytes in memory. -/
def bytesAt (s : State) (a : Nat) (bs : List Byte) : State := s.memWrite a bs

/-! ## WellFormed -/

theorem test_wellFormed_refuses_sixteen_rows : (Instr.drw 0 1 16).wellFormed = false := by decide

theorem test_wellFormed_takes_fifteen_rows : (Instr.drw 0 1 15).wellFormed = true := by decide

/-! ## One word per instruction, bit by bit (R71, R72, R76) -/

/-- 00E0. -/
theorem test_decode_cls : decodeWord 0b0000000011100000 = .ok (.cls) ∧ encode (.cls) = 0x00E0 := by decide

/-- 00EE. -/
theorem test_decode_ret : decodeWord 0b0000000011101110 = .ok (.ret) ∧ encode (.ret) = 0x00EE := by decide

/-- 1ABC. -/
theorem test_decode_jp : decodeWord 0b0001101010111100 = .ok (.jp 0xABC) ∧ encode (.jp 0xABC) = 0x1ABC := by decide

/-- 2ABC. -/
theorem test_decode_call : decodeWord 0b0010101010111100 = .ok (.call 0xABC) ∧ encode (.call 0xABC) = 0x2ABC := by decide

/-- 3342. -/
theorem test_decode_seImm : decodeWord 0b0011001101000010 = .ok (.seImm 3 0x42) ∧ encode (.seImm 3 0x42) = 0x3342 := by decide

/-- 4343. -/
theorem test_decode_sneImm : decodeWord 0b0100001101000011 = .ok (.sneImm 3 0x43) ∧ encode (.sneImm 3 0x43) = 0x4343 := by decide

/-- 5120. -/
theorem test_decode_seReg : decodeWord 0b0101000100100000 = .ok (.seReg 1 2) ∧ encode (.seReg 1 2) = 0x5120 := by decide

/-- 6A7F. -/
theorem test_decode_ldImm : decodeWord 0b0110101001111111 = .ok (.ldImm 0xA 0x7F) ∧ encode (.ldImm 0xA 0x7F) = 0x6A7F := by decide

/-- 7F02. -/
theorem test_decode_addImm : decodeWord 0b0111111100000010 = .ok (.addImm 0xF 0x02) ∧ encode (.addImm 0xF 0x02) = 0x7F02 := by decide

/-- 8120. -/
theorem test_decode_ldReg : decodeWord 0b1000000100100000 = .ok (.ldReg 1 2) ∧ encode (.ldReg 1 2) = 0x8120 := by decide

/-- 8121. -/
theorem test_decode_or : decodeWord 0b1000000100100001 = .ok (.or 1 2) ∧ encode (.or 1 2) = 0x8121 := by decide

/-- 8122. -/
theorem test_decode_and : decodeWord 0b1000000100100010 = .ok (.and 1 2) ∧ encode (.and 1 2) = 0x8122 := by decide

/-- 8123. -/
theorem test_decode_xor : decodeWord 0b1000000100100011 = .ok (.xor 1 2) ∧ encode (.xor 1 2) = 0x8123 := by decide

/-- 8F24. -/
theorem test_decode_addReg : decodeWord 0b1000111100100100 = .ok (.addReg 0xF 2) ∧ encode (.addReg 0xF 2) = 0x8F24 := by decide

/-- 81F5. -/
theorem test_decode_sub : decodeWord 0b1000000111110101 = .ok (.sub 1 0xF) ∧ encode (.sub 1 0xF) = 0x81F5 := by decide

/-- 8126. -/
theorem test_decode_shr : decodeWord 0b1000000100100110 = .ok (.shr 1 2) ∧ encode (.shr 1 2) = 0x8126 := by decide

/-- 8127. -/
theorem test_decode_subn : decodeWord 0b1000000100100111 = .ok (.subn 1 2) ∧ encode (.subn 1 2) = 0x8127 := by decide

/-- 812E. -/
theorem test_decode_shl : decodeWord 0b1000000100101110 = .ok (.shl 1 2) ∧ encode (.shl 1 2) = 0x812E := by decide

/-- 9120. -/
theorem test_decode_sneReg : decodeWord 0b1001000100100000 = .ok (.sneReg 1 2) ∧ encode (.sneReg 1 2) = 0x9120 := by decide

/-- A123. -/
theorem test_decode_ldI : decodeWord 0b1010000100100011 = .ok (.ldI 0x123) ∧ encode (.ldI 0x123) = 0xA123 := by decide

/-- BFFF. -/
theorem test_decode_jpV0 : decodeWord 0b1011111111111111 = .ok (.jpV0 0xFFF) ∧ encode (.jpV0 0xFFF) = 0xBFFF := by decide

/-- C30F. -/
theorem test_decode_rnd : decodeWord 0b1100001100001111 = .ok (.rnd 3 0x0F) ∧ encode (.rnd 3 0x0F) = 0xC30F := by decide

/-- D01F. -/
theorem test_decode_drw : decodeWord 0b1101000000011111 = .ok (.drw 0 1 15) ∧ encode (.drw 0 1 15) = 0xD01F := by decide

/-- E29E. -/
theorem test_decode_skp : decodeWord 0b1110001010011110 = .ok (.skp 2) ∧ encode (.skp 2) = 0xE29E := by decide

/-- E2A1. -/
theorem test_decode_sknp : decodeWord 0b1110001010100001 = .ok (.sknp 2) ∧ encode (.sknp 2) = 0xE2A1 := by decide

/-- F407. -/
theorem test_decode_ldVxDt : decodeWord 0b1111010000000111 = .ok (.ldVxDt 4) ∧ encode (.ldVxDt 4) = 0xF407 := by decide

/-- F30A. -/
theorem test_decode_ldVxK : decodeWord 0b1111001100001010 = .ok (.ldVxK 3) ∧ encode (.ldVxK 3) = 0xF30A := by decide

/-- FF15. -/
theorem test_decode_ldDtVx : decodeWord 0b1111111100010101 = .ok (.ldDtVx 0xF) ∧ encode (.ldDtVx 0xF) = 0xFF15 := by decide

/-- F218. -/
theorem test_decode_ldStVx : decodeWord 0b1111001000011000 = .ok (.ldStVx 2) ∧ encode (.ldStVx 2) = 0xF218 := by decide

/-- F11E. -/
theorem test_decode_addI : decodeWord 0b1111000100011110 = .ok (.addI 1) ∧ encode (.addI 1) = 0xF11E := by decide

/-- F329. -/
theorem test_decode_ldF : decodeWord 0b1111001100101001 = .ok (.ldF 3) ∧ encode (.ldF 3) = 0xF329 := by decide

/-- F533. -/
theorem test_decode_ldB : decodeWord 0b1111010100110011 = .ok (.ldB 5) ∧ encode (.ldB 5) = 0xF533 := by decide

/-- F255. -/
theorem test_decode_stRegs : decodeWord 0b1111001001010101 = .ok (.stRegs 2) ∧ encode (.stRegs 2) = 0xF255 := by decide

/-- FF65. -/
theorem test_decode_ldRegs : decodeWord 0b1111111101100101 = .ok (.ldRegs 0xF) ∧ encode (.ldRegs 0xF) = 0xFF65 := by decide

/-- R77 and S10: words of the illegal families. -/
theorem test_decode_illegal : decodeWord 0x5FFF = .error (.unknownOpcode 0x5FFF) ∧ decodeWord 0x0000 = .error (.unknownOpcode 0x0000) ∧
    decodeWord 0x9121 = .error (.unknownOpcode 0x9121) ∧ decodeWord 0x8128 = .error (.unknownOpcode 0x8128) ∧
    decodeWord 0xE09F = .error (.unknownOpcode 0xE09F) ∧ decodeWord 0xF090 = .error (.unknownOpcode 0xF090) := by decide

/-- Too few bytes. -/
theorem test_decode_truncated : decode [0x12] = .error .truncated ∧ decode [] = .error .truncated := by decide

theorem test_decodeTableWord : decodeTableWord 16 0xD015 = some (.drw 0 1 5) ∧ decodeTableWord 16 0x5FFF = none := by decide

/-! ## Single steps: flow and skips -/

/-- F5. -/
theorem test_ret_pops : (run (deep (s0.setPc 0x300) 1 0x0202) 0x00EE).map (fun t => (t.pc, t.sp)) = some (0x0202, 0) := by decide

/-- X vectors, R203: an empty stack; `pc` stays. -/
theorem test_ret_underflow : (run s0 0x00EE).map (fun t => (t.fault.cause, t.fault.opcode, t.pc)) = some (.stackUnderflow, 0x00EE, 0x200) := by decide

/-- F1, S2. -/
theorem test_jp : (run s0 0x1ABC).map (·.pc) = some 0x0ABC := by decide

/-- F22: the pushed address wraps. -/
theorem test_call_pushes : (run (s0.setPc 0xFFFE) 0x2234).map (fun t => (t.stack[0], t.sp, t.pc)) = some (0x0000, 1, 0x0234) := by decide

/-- P4, step 17. -/
theorem test_call_overflow : (run (deep s0 16 0x0202) 0x2200).map (fun t => (t.fault.cause, t.fault.opcode, t.pc, t.sp)) = some (.stackOverflow, 0x2200, 0x200, 16) := by decide

/-- F7, F8. -/
theorem test_seImm : (run (s0.setV 3 0x42) 0x3342).map (·.pc) = some 0x204 ∧ (run (s0.setV 3 0x42) 0x3343).map (·.pc) = some 0x202 := by decide

/-- F21. -/
theorem test_seImm_wraps : (run (s0.setPc 0xFFFE) 0x3000).map (·.pc) = some 0x0002 := by decide

/-- F9, F10. -/
theorem test_sneImm : (run (s0.setV 3 0x42) 0x4342).map (·.pc) = some 0x202 ∧ (run (s0.setV 3 0x42) 0x4343).map (·.pc) = some 0x204 := by decide

/-- F11, F12. -/
theorem test_seReg : (run ((s0.setV 1 7).setV 2 7) 0x5120).map (·.pc) = some 0x204 ∧ (run ((s0.setV 1 7).setV 2 8) 0x5120).map (·.pc) = some 0x202 := by decide

/-- F14, F15. -/
theorem test_sneReg : (run ((s0.setV 1 7).setV 2 8) 0x9120).map (·.pc) = some 0x204 ∧ (run ((s0.setV 1 7).setV 2 7) 0x9120).map (·.pc) = some 0x202 := by decide

/-- F17, F18. -/
theorem test_jpV0 : (run (s0.setV 0 0x10) 0xB300).map (·.pc) = some 0x0310 ∧ (run (s0.setV 0 0xFF) 0xBFFF).map (·.pc) = some 0x10FE := by decide

/-- F20: an instruction across the end of memory. -/
theorem test_fetch_wraps : (run (s0.setPc 0x0FFF) 0x630A).map (fun t => (t.getV 3, t.pc)) = some (0x0A, 0x1001) := by decide

/-! ## Single steps: registers -/

/-- S1: 6F00 with `VF` = 0x55. -/
theorem test_ldImm : (run s0 0x6A7F).map (fun t => (t.getV 0xA, t.pc)) = some (0x7F, 0x202) ∧ (run (s0.setV 0xF 0x55) 0x6F00).map (·.getV 0xF) = some 0 := by decide

/-- A1, A2. -/
theorem test_addImm : (run ((s0.setV 1 0xFF).setV 0xF 0x55) 0x7101).map (fun t => (t.getV 1, t.getV 0xF)) = some (0x00, 0x55) ∧ (run (s0.setV 0xF 0xFF) 0x7F02).map (·.getV 0xF) = some 0x01 := by decide

/-- A3. -/
theorem test_ldReg : (run (s0.setV 2 0xAB) 0x8120).map (fun t => (t.getV 1, t.getV 2)) = some (0xAB, 0xAB) := by decide

/-- A4. -/
theorem test_or : (run (((s0.setV 1 0xF0).setV 2 0x3C).setV 0xF 0x55) 0x8121).map (fun t => (t.getV 1, t.getV 0xF)) = some (0xFC, 0x55) := by decide

/-- A4. -/
theorem test_and : (run (((s0.setV 1 0xF0).setV 2 0x3C).setV 0xF 0x55) 0x8122).map (fun t => (t.getV 1, t.getV 0xF)) = some (0x30, 0x55) := by decide

/-- A4. -/
theorem test_xor : (run (((s0.setV 1 0xF0).setV 2 0x3C).setV 0xF 0x55) 0x8123).map (fun t => (t.getV 1, t.getV 0xF)) = some (0xCC, 0x55) := by decide

/-- A5, A6. -/
theorem test_addReg : (run ((s0.setV 1 0xFF).setV 2 0x00) 0x8124).map (fun t => (t.getV 1, t.getV 0xF)) = some (0xFF, 0) ∧ (run ((s0.setV 1 0xFF).setV 2 0x01) 0x8124).map (fun t => (t.getV 1, t.getV 0xF)) = some (0x00, 1) := by decide

/-- A12, A14. -/
theorem test_addReg_vf : (run ((s0.setV 0xF 0xF0).setV 2 0x20) 0x8F24).map (·.getV 0xF) = some 0x10 ∧ (run ((s0.setV 1 0x10).setV 0xF 0xF5) 0x81F4).map (fun t => (t.getV 1, t.getV 0xF)) = some (0x05, 1) := by decide

/-- A9 (equal gives 0), A11. -/
theorem test_sub : (run ((s0.setV 1 7).setV 2 7) 0x8125).map (fun t => (t.getV 1, t.getV 0xF)) = some (0, 0) ∧ (run ((s0.setV 1 0).setV 2 1) 0x8125).map (fun t => (t.getV 1, t.getV 0xF)) = some (0xFF, 0) := by decide

/-- A12c, A14b. -/
theorem test_sub_vf : (run ((s0.setV 0xF 5).setV 2 3) 0x8F25).map (·.getV 0xF) = some 2 ∧ (run ((s0.setV 1 0x10).setV 0xF 1) 0x81F5).map (fun t => (t.getV 1, t.getV 0xF)) = some (0x0F, 1) := by decide

/-- A17, A18. -/
theorem test_shr : (run ((s0.setV 1 0xFF).setV 2 0x02) 0x8126).map (fun t => (t.getV 1, t.getV 2, t.getV 0xF)) = some (0x7F, 0x02, 1) ∧ (run (((start on).setV 1 0xFF).setV 2 0x02) 0x8126).map (fun t => (t.getV 1, t.getV 2, t.getV 0xF)) = some (0x01, 0x02, 0) := by decide

/-- A13, A13b. -/
theorem test_shr_vf : (run (s0.setV 0xF 0x06) 0x8F26).map (·.getV 0xF) = some 0 ∧ (run (s0.setV 0xF 0x07) 0x8F26).map (·.getV 0xF) = some 1 := by decide

/-- A16, A16b. -/
theorem test_subn : (run ((s0.setV 1 7).setV 2 7) 0x8127).map (fun t => (t.getV 1, t.getV 0xF)) = some (0, 0) ∧ (run ((s0.setV 1 7).setV 2 8) 0x8127).map (fun t => (t.getV 1, t.getV 0xF)) = some (1, 1) := by decide

/-- A20 (the flag is 1, not 0x80), A22. -/
theorem test_shl : (run ((s0.setV 1 0xFF).setV 2 0) 0x812E).map (fun t => (t.getV 1, t.getV 0xF)) = some (0xFE, 1) ∧ (run (((start on).setV 1 0).setV 2 0xC0) 0x812E).map (fun t => (t.getV 1, t.getV 2, t.getV 0xF)) = some (0x80, 0xC0, 1) := by decide

/-- A13c. -/
theorem test_shl_vf : (run (s0.setV 0xF 0x81) 0x8F2E).map (·.getV 0xF) = some 1 := by decide

/-- A23, A24. -/
theorem test_rnd : (runWith ⟨[], none, 0xA7⟩ (s0.setV 1 0xFF) 0xC10F).map (·.getV 1) = some 0x07 ∧ (runWith ⟨[], none, 0xFF⟩ (s0.setV 0xF 0x55) 0xCF0F).map (·.getV 0xF) = some 0x0F := by decide

/-! ## Single steps: address register and memory -/

/-- M1, M2. -/
theorem test_ldI : (run s0 0xA123).map (·.i) = some 0x0123 ∧ (run (s0.setI 0xFFFF) 0xAFFF).map (·.i) = some 0x0FFF := by decide

/-- M3, M4. -/
theorem test_addI : (run ((s0.setI 0xFFFF).setV 1 1) 0xF11E).map (·.i) = some 0 ∧ (run ((s0.setI 0x0FFF).setV 1 1) 0xF11E).map (·.i) = some 0x1000 := by decide

/-- M6, M8. -/
theorem test_ldF : (run (s0.setV 3 0x0F) 0xF329).map (·.i) = some 0x004B ∧ (run (s0.setV 3 0xFF) 0xF329).map (·.i) = some 0x04FB := by decide

/-- M9 (199). -/
theorem test_ldB : (run ((s0.setI 0x300).setV 0 199) 0xF033).map (fun t => (t.mem.loadBlock 0x300 3, t.i)) = some ([1, 9, 9], 0x300) := by decide

/-- M10: into the font, which is writable. -/
theorem test_ldB_wraps : (run ((s0.setI 0x0FFF).setV 0 123) 0xF033).map (fun t => (t.memRead 0xFFF, t.mem.loadBlock 0 5)) = some (1, [2, 3, 0x90, 0x90, 0xF0]) := by decide

/-- M15, `Q_MEMINC` on and off. -/
theorem test_stRegs : (run ((((start on).setI 0xFFFE).setV 0 0xAA).setV 2 0xCC) 0xF255).map (fun t => (t.memRead 0xFFE, t.memRead 0, t.i)) = some (0xAA, 0xCC, 0x0001) ∧ (run (((s0.setI 0xFFFE).setV 0 0xAA).setV 2 0xCC) 0xF255).map (fun t => (t.memRead 0xFFE, t.i)) = some (0xAA, 0xFFFE) := by decide

/-- M12: `x` = 0 stores `V0` only. -/
theorem test_stRegs_one : (run (((s0.setI 0x300).setV 0 0xAB).setV 1 0xCD) 0xF055).map (fun t => t.mem.loadBlock 0x300 2) = some [0xAB, 0] := by decide

/-- M16: glyph 0; `V5` is unchanged. -/
theorem test_ldRegs : (run (s0.setV 5 0x77) 0xF465).map (fun t => (t.regBlock 5, t.i)) = some ([0xF0, 0x90, 0x90, 0x90, 0xF0, 0x77], 0) ∧ (run (start on) 0xF465).map (·.i) = some 5 := by decide

/-- M17: glyph F; `VF` is loaded like any register. -/
theorem test_ldRegs_all : (run ((s0.setI 0x4B).setV 0xF 0x55) 0xFF65).map (fun t => t.regBlock 0xF) = some [0xF0, 0x80, 0xF0, 0x80, 0x80, 0, 0, 0, 0, 0, 0, 0, 0, 0, 0, 0] := by decide

/-! ## Single steps: display -/

/-- DR12, DR13. -/
theorem test_cls : (run (clean (s0.setV 0xF 0x55)) 0x00E0).map (fun t => (t.display.dirty, t.getV 0xF, t.pc)) = some (true, 0x55, 0x202) := by decide

/-- DR1. -/
theorem test_drw_glyph : (run (clean s0) 0xD015).map (fun t => (lit t 10 7, t.getV 0xF, t.display.dirty)) = some ([(0, 0), (1, 0), (2, 0), (3, 0), (0, 1), (3, 1), (0, 2), (3, 2), (0, 3), (3, 3), (0, 4), (1, 4), (2, 4), (3, 4)], 0, true) := by decide

/-- DR8, from the state after DR7. -/
theorem test_drw_collides : (((run (bytesAt (s0.setI 0x300) 0x300 [0xC0]) 0xD011).map (fun t => (t.setV 0 1).setPc 0x200)).bind (run · 0xD011)).map (fun t => (lit t 8 4, t.getV 0xF)) = some ([(0, 0), (2, 0)], 1) := by decide

/-! ## Single steps: keys and timers -/

/-- K1, K5. -/
theorem test_skp : (runWith ⟨[5], none, 0⟩ (s0.setV 1 5) 0xE19E).map (·.pc) = some 0x204 ∧ (runWith ⟨[5], none, 0⟩ (s0.setV 1 0x15) 0xE19E).map (·.pc) = some 0x202 := by decide

/-- K3, K4. -/
theorem test_sknp : (runWith ⟨[5], none, 0⟩ (s0.setV 1 5) 0xE1A1).map (·.pc) = some 0x202 ∧ (runWith ⟨[4, 6], none, 0⟩ (s0.setV 1 5) 0xE1A1).map (·.pc) = some 0x204 := by decide

/-- K6 (a held key does not end the wait), K7. -/
theorem test_ldVxK : (runWith ⟨[5], none, 0⟩ (s0.setV 3 0xFF) 0xF30A).map (fun t => (t.getV 3, t.pc)) = some (0xFF, 0x200) ∧ (runWith ⟨[], some 0xB, 0⟩ (s0.setV 3 0xFF) 0xF30A).map (fun t => (t.getV 3, t.pc)) = some (0x0B, 0x202) := by decide

/-- K9. -/
theorem test_ldVxDt : (run (s0.setDt 0x3C) 0xF207).map (fun t => (t.getV 2, t.dt)) = some (0x3C, 0x3C) := by decide

/-- K10, K12. -/
theorem test_ldDtVx : (run (s0.setV 2 0xFF) 0xF215).map (fun t => (t.dt, t.st)) = some (0xFF, 0) ∧ (run (s0.setV 0xF 0x07) 0xFF15).map (·.dt) = some 0x07 := by decide

/-- K11. -/
theorem test_ldStVx : (run (s0.setV 2 3) 0xF218).map (fun t => (t.st, t.dt, t.out)) = some (3, 0, []) := by decide

/-! ## Single events -/

/-- T3, the first tick, and T5, halted. -/
theorem test_tick : (stepped (withEvents ((s0.setDt 5).setSt 2) [.tick])).map (fun t => (t.dt, t.st, t.out)) = some (4, 1, [.tone]) ∧ (stepped (withEvents (((s0.setDt 2).setSt 1).raise .unknownOpcode 0x5FFF) [.tick])).map (fun t => (t.dt, t.st, t.out, t.fault)) = some (1, 0, [.tone], ⟨.unknownOpcode, 0x5FFF⟩) := by decide

/-- S10; and P5: the zero memory after a program. -/
theorem test_unknown_opcode : (run s0 0x5FFF).map (fun t => (t.fault, t.pc)) = some (⟨.unknownOpcode, 0x5FFF⟩, 0x200) ∧ (run (s0.setPc 0x202) 0x0000).map (fun t => (t.fault, t.pc)) = some (⟨.unknownOpcode, 0x0000⟩, 0x202) := by decide

/-- R230, R231: a later `Reset` restores the font and keeps the memory above it. -/
theorem test_reset : (stepped (withEvents (((bytesAt (bytesAt (s0.setV 3 7) 0x300 [0xAA]) 0 [0x11]).setPc 0x444).raise .stackOverflow 0x2200) [.reset])).map (fun t => (t.getV 3, t.pc, t.memRead 0x300, t.memRead 0, t.fault.cause, t.loadable)) = some (0, 0x200, 0xAA, 0xF0, .none, true) := by decide

/-- S8: the image lies at 0x200 and cannot be loaded a second time. -/
theorem test_load_program : (stepped (withEvents s0 [.loadProgram [0x60, 0x05]])).map (fun t => (t.fetchWord, t.loadable)) = some (0x6005, false) := by decide

/-- DR14. -/
theorem test_take_dirty : ((stepped (withEvents s0 [.takeDirty, .takeDirty])).bind stepped).map (fun t => (t.out, t.display.dirty)) = some ([.dirty true, .dirty false], false) := by decide

/-! ## Witnesses: for every statement with hypotheses, a state and operands that meet them -/

/-- A state whose next event is a `Step` on the opcode placed at `pc`. -/
def ready (s : State) (op : Word) : State := withEvents (s.memWrite s.pc.toNat (opBytes op)) [.step idle]

/-- A halted state. -/
def haltedState (es : List Event) : State := withEvents (s0.raise .unknownOpcode 0x5FFF) es

theorem witness_DecodeOfEncode : (Instr.drw 1 2 15).wellFormed = true ∧ (Instr.drw 1 2 0).wellFormed = true := by decide

theorem witness_EncodeOfDecode : decodeWord 0xD12F = .ok (.drw 1 2 15) := by decide

theorem witness_StepRunsDecodedInstruction : ∃ t, (ready s0 0x6005).nextEvent = .step idle ∧ (ready s0 0x6005).fault.cause = .none ∧
    decode [(ready s0 0x6005).memRead (ready s0 0x6005).pc.toNat, (ready s0 0x6005).memRead ((ready s0 0x6005).pc.toNat + 1)] =
      .ok (.ldImm 0 5, []) ∧ exec (.ldImm 0 5) (ready s0 0x6005) = .next t := ⟨_, by decide, by decide, by decide, rfl⟩

/-- The clause about the last byte of memory. -/
theorem witness_FetchIsBigEndian : (ready (s0.setPc 0x0FFF) 0x630A).pc.toNat % 4096 = 4095 ∧
    (ready (s0.setPc 0x0FFF) 0x630A).fetchWord = 0x630A := by decide

theorem witness_FaultsArePrecise_unknownOpcode : (ready s0 0x5FFF).nextEvent = .step idle ∧ FaultsWith (ready s0 0x5FFF) .unknownOpcode :=
  ⟨by decide, by decide, .inl ⟨rfl, by unfold IllegalWord; decide⟩⟩

theorem witness_FaultsArePrecise_stackOverflow : FaultsWith (ready (deep s0 16 0) 0x2FFF) .stackOverflow :=
  ⟨by decide, .inr (.inl ⟨rfl, by decide, by decide⟩)⟩

theorem witness_FaultsArePrecise_stackUnderflow : FaultsWith (ready s0 0x00EE) .stackUnderflow :=
  ⟨by decide, .inr (.inr ⟨rfl, by decide, by decide⟩)⟩

/-- No cause: a CALL at depth 15. -/
theorem witness_FaultsArePrecise_none : ∀ c, ¬ FaultsWith (ready (deep s0 15 0) 0x2FFF) c := by
  intro c
  unfold FaultsWith IllegalWord
  cases c <;> decide

theorem witness_UnknownOpcodeFaults : (ready s0 0xF090).nextEvent = .step idle ∧ (ready s0 0xF090).fault.cause = .none ∧
    IllegalWord (ready s0 0xF090).fetchWord.toNat ∧ ¬ IllegalWord (ready s0 0xF055).fetchWord.toNat :=
  ⟨by decide, by decide, by unfold IllegalWord; decide, by unfold IllegalWord; decide⟩

theorem witness_HaltedEngineExecutesNothing : (haltedState []).fault.cause ≠ .none ∧
    (haltedState [.step idle]).nextEvent = .step idle ∧ (haltedState [.tick]).nextEvent = .tick ∧
    (haltedState [.reset]).nextEvent ∈ [.reset, .takeDirty, .readGrid, .dump, .readFault] := by decide

theorem witness_OnlyResetLeavesHalt : (∃ t, step (haltedState [.tick]) = .next t) ∧ (haltedState [.reset]).nextEvent = .reset :=
  ⟨⟨_, rfl⟩, by decide⟩

theorem witness_StepKeepsInvariant : (ready s0 0x6005).Inv ∧ ∃ t, step (ready s0 0x6005) = .next t :=
  ⟨⟨by decide, trivial, by decide⟩, _, rfl⟩

theorem witness_QuirksNeverChange : ∃ t, step (withEvents s0 [.reset]) = .next t := ⟨_, rfl⟩

/-- One instruction for each unit it owns. -/
theorem witness_UnitsHaveOwners :
    (∃ t, exec (.call 0x300) s0 = .next t ∧ ¬ KeepsStack s0 t) ∧
    (∃ t, exec .cls (clean s0) = .next t ∧ t.display ≠ (clean s0).display) ∧
    (∃ t, exec (.ldDtVx 0) (s0.setV 0 5) = .next t ∧ t.dt ≠ s0.dt) ∧
    (∃ t, exec (.ldStVx 0) (s0.setV 0 5) = .next t ∧ t.st ≠ s0.st) ∧
    (∃ t, exec (.stRegs 0) ((s0.setV 0 5).setI 0x300) = .next t ∧ ¬ KeepsMem ((s0.setV 0 5).setI 0x300) t) ∧
    (∃ t, exec (.ldRegs 0) (start on) = .next t ∧ t.i ≠ (start on).i) ∧
    (∃ t, exec .ret s0 = .next t ∧ t.fault ≠ s0.fault) :=
  ⟨⟨_, rfl, fun h => absurd h.1 (by decide)⟩, ⟨_, rfl, fun h => absurd (congrArg Display.dirty h) (by decide)⟩, ⟨_, rfl, by decide⟩,
    ⟨_, rfl, by decide⟩, ⟨_, rfl, fun h => absurd (h 0x300) (by decide)⟩, ⟨_, rfl, by decide⟩, ⟨_, rfl, by decide⟩⟩

theorem witness_VfWritersExactly : ∃ t, exec (.addReg 1 2) ((s0.setV 1 0xFF).setV 2 1) = .next t ∧
    t.getV Reg.vf ≠ ((s0.setV 1 0xFF).setV 2 1).getV Reg.vf := ⟨_, rfl, by decide⟩

theorem witness_PcAfterInstruction : (∃ t, exec .ret (deep s0 16 0x202) = .next t) ∧ 0 < (deep s0 16 0x202).sp.val ∧
    (∃ t, exec .ret s0 = .next t) ∧ s0.sp.val = 0 ∧ (deep s0 15 0).sp.val < 16 ∧ (deep s0 16 0).sp.val = 16 :=
  ⟨⟨_, rfl⟩, by decide, ⟨_, rfl⟩, by decide, by decide, by decide⟩

/-- Two inputs with the same keys in another order and other key-downs and random bytes, for SKP. -/
theorem witness_InputsReadOnlyWhereNamed :
    (∀ x, Instr.skp 1 = .skp x ∨ Instr.skp 1 = .sknp x → ∀ k : Key, k ∈ [(5 : Key), 7] ↔ k ∈ [(7 : Key), 5]) ∧
    (∀ x, Instr.skp 1 = .ldVxK x → (none : Option Key) = some 3) ∧ (∀ x kk, Instr.skp 1 = .rnd x kk → (0 : Byte) = 1) :=
  ⟨fun _ _ => by decide, fun _ h => by simp at h, fun _ _ h => by simp at h⟩

/-- Depth 1, another value above it. -/
theorem witness_StaleStackEntriesUnread :
    ∀ k : Fin 16, k.val < (deep s0 1 0x202).sp.val →
      ((Vector.replicate 16 (0x303 : Word)).set 0 0x202)[k.val] = (deep s0 1 0x202).stack[k.val] := by decide

theorem witness_TimersOnlyRiseByTheirInstruction : ∃ t, step (withEvents (s0.setDt 3) [.tick]) = .next t := ⟨_, rfl⟩

/-- A halted state with a changed font and a changed program. -/
theorem witness_ResetLeavesSpecValues : (withEvents (bytesAt (bytesAt s0 0 [0x11]) 0x300 [0xAA]) [.reset]).MemOk ∧
    (withEvents (bytesAt (bytesAt s0 0 [0x11]) 0x300 [0xAA]) [.reset]).nextEvent = .reset := by decide

theorem witness_TickCountsDown : (withEvents s0 [.tick]).nextEvent = .tick := by decide

/-- T3: three ticks, `ST` = 2. -/
theorem witness_TonesOverTicks : (withEvents (s0.setSt 2) [.tick, .tick, .tick]).events = List.replicate 3 .tick ++ [] := by decide

theorem witness_TakeDirtyAnswersAndClears : (withEvents s0 [.takeDirty]).nextEvent = .takeDirty := by decide

theorem witness_HostReadsChangeNothing : (withEvents s0 [.readGrid]).nextEvent = .readGrid ∧
    (withEvents s0 [.readFault]).nextEvent = .readFault ∧ (withEvents s0 [.dump]).nextEvent = .dump := by decide

/-- The longest image that fits. -/
theorem witness_LoadProgramCopiesImage_fits : (withEvents s0 [.loadProgram (List.replicate 3584 1)]).nextEvent = .loadProgram (List.replicate 3584 1) ∧
    s0.MemOk ∧ s0.loadable = true ∧ (List.replicate 3584 (1 : Byte)).length ≤ 3584 :=
  ⟨rfl, by decide, by decide, by rw [List.length_replicate]⟩

/-- The shortest that does not, and a closed window. -/
theorem witness_LoadProgramCopiesImage_stops : 3584 < (List.replicate 3585 (1 : Byte)).length ∧
    (ready s0 0x6005).stepDone.loadable = false := ⟨by rw [List.length_replicate]; decide, by decide⟩

/-- A jump to itself at 0x200 and at 0xFFE. -/
theorem witness_EndedRunStays : (ready s0 0x1200).RunEnded ∧ (ready (s0.setPc 0xFFE) 0x1FFE).RunEnded ∧
    (ready s0 0x1200).nextEvent = .step idle := by decide

theorem witness_PlacedWordRunsNext : s0.MemOk ∧ decodeTableWord 16 0x6005 = some (.ldImm 0 5) ∧
    ∃ t, exec (.ldImm 0 5) (s0.withFetchWord 16 0x6005) = .next t := ⟨by decide, by decide, _, rfl⟩

/-- From reset itself the placed word is the next that runs. -/
theorem test_withFetchWord_from_reset : (stepped (State.reset.withFetchWord 16 0x6005)).map (fun t => (t.getV 0, t.pc)) = some (5, 0x202) := by decide

theorem witness_ReturnPops : 0 < (deep s0 1 0x202).sp.val ∧ 0 < (deep s0 16 0x202).sp.val ∧ s0.sp.val = 0 := by decide

theorem witness_CallPushes : s0.sp.val < 16 ∧ (deep s0 15 0).sp.val < 16 ∧ (deep s0 16 0).sp.val = 16 := by decide

theorem witness_CallThenReturn : (deep s0 15 0).sp.val < 16 ∧ s0.sp.val < 16 := by decide

/-- The low nibbles 1 and 15. -/
theorem witness_SkipsOnRegister : (0 < 1 ∧ 1 < 16) ∧ (0 < 15 ∧ 15 < 16) := by decide

/-- For the statements with the premise that the destination is not `VF`: AddCarries, SubtractCompares, ShiftRightByOne, ShiftLeftByOne. -/
theorem witness_destination_not_vf : (0 : Reg) ≠ Reg.vf ∧ (14 : Reg) ≠ Reg.vf := by decide

/-- The shifted source under both settings, for ShiftRightByOne and ShiftLeftByOne. -/
theorem witness_ShiftsByOne :
    0xFF = (if (s0.setV 1 0xFF).quirks.shift then (s0.setV 1 0xFF).getV 2 else (s0.setV 1 0xFF).getV 1).toNat ∧
    0x80 = (if ((start on).setV 2 0x80).quirks.shift then ((start on).setV 2 0x80).getV 2 else ((start on).setV 2 0x80).getV 1).toNat := by decide

/-- Digits 0 and 15 in a memory that holds the font. -/
theorem witness_GlyphAddress : ((s0.setV 3 15).getV 3).toNat = 15 ∧ (s0.getV 3).toNat = 0 ∧
    ∀ k (h : k < 80), (s0.setV 3 15).memRead k = fontBytes[k]'h := by decide

/-- For StoreDecimalDigits, StoreRegisterBlock and StoreThenLoadRestores. -/
theorem witness_memory_ok : s0.MemOk ∧ (bytesAt (bytesAt s0 0 [0x11, 0x90]) 0xFFF [0xAA, 0xF0]).MemOk := by decide

/-- A register of the block, the last of it, and one above it, for StoreRegisterBlock, LoadRegisterBlock and StoreThenLoadRestores. -/
theorem witness_register_block : (0 : Reg) ≤ 4 ∧ (4 : Reg) ≤ 4 ∧ ¬ (5 : Reg) ≤ 4 ∧ (4 : Reg) < 5 := by decide

/-- At 0x200, and where the next instruction starts at address 0. -/
theorem witness_StoreSeenByNextFetch : s0.MemOk ∧ 1 ≤ (1 : Reg).val ∧ (s0.setI 0x202).i.toNat % 4096 = ((s0.setI 0x202).pc.toNat + 2) % 4096 ∧
    (s0.setPc 0xFFE).i.toNat % 4096 = ((s0.setPc 0xFFE).pc.toNat + 2) % 4096 := by decide

/-- No row and fifteen rows, for DrawXorsSprite and DrawTwiceRestores. -/
theorem witness_DrawXorsSprite : (Instr.drw 0 1 0).wellFormed = true ∧ (Instr.drw 0 1 15).wellFormed = true ∧
    (0 : Reg) ≠ Reg.vf ∧ (1 : Reg) ≠ Reg.vf := by decide

/-- A sprite bit in the corner, and none anywhere for a sprite of no rows. -/
theorem witness_SpriteOn : SpriteOn s0 0 1 5 0 0 ∧ ¬ ∃ cx cy, SpriteOn s0 0 1 0 cx cy :=
  ⟨⟨0, by decide, 0, by decide, by decide, by decide, by decide⟩, by rintro ⟨_, _, _, h, _⟩; exact absurd h (Nat.not_lt_zero _)⟩

/-- A step whose input holds key 5. -/
def keyState : State := withEvents (s0.setV 1 5) [.step ⟨[5], none, 0⟩]

theorem witness_SkipsOnKey : (∃ k ∈ keyState.input.keysHeld, k.val = (keyState.getV 1).toNat) ∧
    ¬ ∃ k ∈ keyState.input.keysHeld, k.val = (keyState.getV 2).toNat := by decide

theorem witness_KeyAboveFifteenNeverHeld : 15 < ((s0.setV 1 16).getV 1).toNat ∧ 15 < ((s0.setV 1 0xFF).getV 1).toNat := by decide

theorem witness_WaitForKey : keyState.input.keydown = none ∧
    (withEvents s0 [.step ⟨[], some 0xB, 0⟩]).input.keydown = some 0xB := by decide

end Sys2Proof.Tests
end

/-! Which inputs of a step an instruction reads (00_scope R8): the events in the queue reach `exec` only through the part of `State.input` that the instruction names, so a run with another queue is the same run carrying that queue. -/

namespace Sys2Proof.Machine

/-- The state with another queue of events, and so with other inputs for the current step. -/
def State.withQueue (s : State) (q : List Event) : State := { s with events := q }

/-- Two inputs agree on what the instruction reads of them (R8). -/
def InputsAgree (a b : StepInput) : Instr → Prop
  | .skp _ | .sknp _ => ∀ k, k ∈ a.keysHeld ↔ k ∈ b.keysHeld
  | .ldVxK _ => a.keydown = b.keydown
  | .rnd _ _ => a.rand = b.rand
  | _ => True

/-- Only membership in `keys_held` is read: order and repeats mean nothing (log 23). -/
theorem keyHeld_congr {a b : StepInput} (h : ∀ k, k ∈ a.keysHeld ↔ k ∈ b.keysHeld) (v : Byte) :
    keyHeld a v = keyHeld b v := by
  rw [Bool.eq_iff_iff]
  simp only [keyHeld_iff, h]

theorem execRet_of_nonempty {s : State} (h : 0 < s.sp.val) : execRet s = .next (s.drop.setPc (s.top h)) :=
  congrArg Host.Outcome.next (dif_pos h)

theorem execRet_of_empty {s : State} (h : ¬ 0 < s.sp.val) :
    execRet s = .next (s.raise .stackUnderflow (encode .ret)) :=
  congrArg Host.Outcome.next (dif_neg h)

theorem execCall_of_room (nnn : Addr12) {s : State} (h : s.sp.val < Config.stackDepth) :
    execCall nnn s = .next ((s.push s.npc h).setPc (wordOfAddr nnn)) :=
  congrArg Host.Outcome.next (dif_pos h)

theorem execCall_of_full (nnn : Addr12) {s : State} (h : ¬ s.sp.val < Config.stackDepth) :
    execCall nnn s = .next (s.raise .stackOverflow (encode (.call nnn))) :=
  congrArg Host.Outcome.next (dif_neg h)

theorem execRet_withQueue (s : State) (q : List Event) :
    execRet (s.withQueue q) = onNext (·.withQueue q) (execRet s) := by
  by_cases h : 0 < s.sp.val
  · rw [execRet_of_nonempty h]; exact execRet_of_nonempty (s := s.withQueue q) h
  · rw [execRet_of_empty h]; exact execRet_of_empty (s := s.withQueue q) h

theorem execCall_withQueue (nnn : Addr12) (s : State) (q : List Event) :
    execCall nnn (s.withQueue q) = onNext (·.withQueue q) (execCall nnn s) := by
  by_cases h : s.sp.val < Config.stackDepth
  · rw [execCall_of_room nnn h]; exact execCall_of_room nnn (s := s.withQueue q) h
  · rw [execCall_of_full nnn h]; exact execCall_of_full nnn (s := s.withQueue q) h

theorem execLdVxK_withQueue (x : Reg) {s : State} {q : List Event}
    (h : s.input.keydown = (s.withQueue q).input.keydown) :
    execLdVxK x (s.withQueue q) = onNext (·.withQueue q) (execLdVxK x s) := by
  simp only [execLdVxK, onNext, ← h]
  split <;> rfl

/-- An instruction run with another queue does the same and carries that queue, where the two queues agree on what it reads. -/
theorem exec_withQueue {ins : Instr} {s : State} {q : List Event}
    (h : InputsAgree s.input (s.withQueue q).input ins) :
    exec ins (s.withQueue q) = onNext (·.withQueue q) (exec ins s) := by
  cases ins with
  | skp x => exact congrArg (fun c => Host.Outcome.next ((s.skipIf c).withQueue q)) (keyHeld_congr h (s.getV x)).symm
  | sknp x => exact congrArg (fun c => Host.Outcome.next ((s.skipIf !c).withQueue q)) (keyHeld_congr h (s.getV x)).symm
  | ldVxK x => exact execLdVxK_withQueue x h
  | rnd x kk => exact congrArg (fun r => Host.Outcome.next ((s.finish x (r &&& kk)).withQueue q)) (Eq.symm h)
  | ret => exact execRet_withQueue s q
  | call nnn => exact execCall_withQueue nnn s q
  | _ => rfl

/-- Settles O19: the second run is the first with the other queue put in, by `exec_withQueue`. -/
theorem inputsReadOnlyWhereNamed : Obligations.InputsReadOnlyWhereNamed := by
  intro ins s a b es hheld hdown hrand
  have agree : InputsAgree a b ins := by
    cases ins with
    | skp x => exact hheld x (.inl rfl)
    | sknp x => exact hheld x (.inr rfl)
    | ldVxK x => exact hdown x rfl
    | rnd x kk => exact hrand x kk rfl
    | _ => trivial
  obtain ⟨t, ht⟩ := exec_next ins (s.withQueue (.step a :: es))
  have hu := exec_withQueue (s := s.withQueue (.step a :: es)) (q := .step b :: es) agree
  rw [ht] at hu
  exact ⟨t, t.withQueue (.step b :: es), ht, hu, rfl⟩

end Sys2Proof.Machine

/-! The state as a whole (10_state): which instruction owns which unit, which registers an instruction writes and where it leaves `pc`, what no event changes, what no instruction reads, and the values after a reset. -/

namespace Sys2Proof.Machine

/-! ## Owners of the units (10_state section 1), from the shape of the change -/

theorem Changed.keepsModel {ins : Instr} {s t : State} (h : Changed s t ins) : KeepsModel s t := by
  cases h
  all_goals
    have e := ‹t = _›
    exact ⟨by simpa using congrArg State.quirks e, by simpa using congrArg State.events e,
      by simpa using congrArg State.stepNo e, by simpa using congrArg State.out e,
      by simpa using congrArg State.loadable e⟩

theorem Changed.stack_owner {ins : Instr} {s t : State} (h : Changed s t ins) (hne : ¬ KeepsStack s t) :
    ins = .ret ∨ ∃ nnn, ins = .call nnn := by
  cases h with
  | ret | underflow => exact .inl rfl
  | call | overflow => exact .inr ⟨_, rfl⟩
  | _ =>
    have e := ‹t = _›
    exact absurd ⟨by simpa using congrArg State.sp e, by simpa using congrArg State.stack e⟩ hne

theorem Changed.display_owner {ins : Instr} {s t : State} (h : Changed s t ins) (hne : t.display ≠ s.display) :
    ins = .cls ∨ ∃ x y n, ins = .drw x y n := by
  cases h with
  | cls => exact .inl rfl
  | drw => exact .inr ⟨_, _, _, rfl⟩
  | _ =>
    have e := ‹t = _›
    exact absurd (by simpa using congrArg State.display e) hne

theorem Changed.dt_owner {ins : Instr} {s t : State} (h : Changed s t ins) (hne : t.dt ≠ s.dt) :
    ∃ x, ins = .ldDtVx x := by
  cases h with
  | ldDtVx => exact ⟨_, rfl⟩
  | _ =>
    have e := ‹t = _›
    exact absurd (by simpa using congrArg State.dt e) hne

theorem Changed.st_owner {ins : Instr} {s t : State} (h : Changed s t ins) (hne : t.st ≠ s.st) :
    ∃ x, ins = .ldStVx x := by
  cases h with
  | ldStVx => exact ⟨_, rfl⟩
  | _ =>
    have e := ‹t = _›
    exact absurd (by simpa using congrArg State.st e) hne

theorem Changed.mem_owner {ins : Instr} {s t : State} (h : Changed s t ins) (hne : ¬ KeepsMem s t) :
    ∃ x, ins = .ldB x ∨ ins = .stRegs x := by
  cases h with
  | ldB => exact ⟨_, .inl rfl⟩
  | stRegs => exact ⟨_, .inr rfl⟩
  | _ =>
    have e := ‹t = _›
    exact absurd (fun a => congrArg (Memory.load · a) (by simpa using congrArg State.mem e : t.mem = s.mem)) hne

/-- A block instruction moves `I` only with `Q_MEMINC` (R144, R145). -/
theorem State.memInc_of_blockEndI_ne {s : State} {x : Reg} (h : s.blockEndI x ≠ s.i) : s.quirks.memInc = true := by
  by_contra hq
  exact h (if_neg hq)

theorem Changed.i_owner {ins : Instr} {s t : State} (h : Changed s t ins) (hne : t.i ≠ s.i) :
    (∃ nnn, ins = .ldI nnn) ∨ ∃ x, ins = .addI x ∨ ins = .ldF x ∨
      s.quirks.memInc = true ∧ (ins = .stRegs x ∨ ins = .ldRegs x) := by
  cases h with
  | ldI => exact .inl ⟨_, rfl⟩
  | addI => exact .inr ⟨_, .inl rfl⟩
  | ldF => exact .inr ⟨_, .inr (.inl rfl)⟩
  | stRegs e => exact .inr ⟨_, .inr (.inr ⟨State.memInc_of_blockEndI_ne (e ▸ hne), .inl rfl⟩)⟩
  | ldRegs e => exact .inr ⟨_, .inr (.inr ⟨State.memInc_of_blockEndI_ne (e ▸ hne), .inr rfl⟩)⟩
  | _ =>
    have e := ‹t = _›
    exact absurd (by simpa using congrArg State.i e) hne

theorem Changed.fault_owner {ins : Instr} {s t : State} (h : Changed s t ins) (hne : t.fault ≠ s.fault) :
    ins = .ret ∧ s.sp.val = 0 ∨ (∃ nnn, ins = .call nnn) ∧ s.sp.val = 16 := by
  cases h with
  | underflow hsp => exact .inl ⟨rfl, hsp⟩
  | overflow hsp => exact .inr ⟨⟨_, rfl⟩, hsp⟩
  | _ =>
    have e := ‹t = _›
    exact absurd (by simpa using congrArg State.fault e) hne

/-- Settles O16: each clause is the owner lemma of its unit. -/
theorem unitsHaveOwners : Obligations.UnitsHaveOwners := by
  intro ins s t h
  have hc := exec_changed h
  exact ⟨hc.stack_owner, hc.display_owner, hc.dt_owner, hc.st_owner, hc.mem_owner, hc.i_owner, hc.fault_owner,
    hc.keepsModel⟩

/-! ## The quirk setting over every event (R31) -/

theorem engineCore_quirks {s t : State} (h : engineCore s = .next t) : t.quirks = s.quirks := by
  rcases engineCore_cases h with ⟨-, rfl⟩ | ⟨-, ins, -, he⟩ | ⟨-, -, rfl⟩
  · rfl
  · exact (exec_changed he).keepsModel.1
  · rfl

/-- Settles O14: by the kind of event; within a `Step`, no instruction writes the model's fields. -/
theorem quirksNeverChange : Obligations.QuirksNeverChange := by
  intro s t h
  rcases step_cases h with ⟨_, u, -, hu, rfl⟩ | ⟨-, rfl⟩ | ⟨-, rfl⟩ | ⟨_, -, -, -, rfl⟩ | ⟨-, rfl⟩ | ⟨-, rfl⟩ |
    ⟨-, rfl⟩ | ⟨-, rfl⟩
  case inl => exact engineCore_quirks (t := u) hu
  case inr.inl => rw [State.tick_eq]; rfl
  all_goals rfl

/-! ## The general registers an instruction writes (R20, R21) -/

/-- The instruction may write general register `r`: its destination, `VF` as a flag, or the block `V0` to `Vx` of Fx65. -/
def WritesReg (r : Reg) : Instr → Prop
  | .ldImm x _ | .addImm x _ | .rnd x _ => r = x
  | .ldReg x _ | .or x _ | .and x _ | .xor x _ => r = x
  | .addReg x _ | .sub x _ | .shr x _ | .subn x _ | .shl x _ => r = x ∨ r = Reg.vf
  | .drw _ _ _ => r = Reg.vf
  | .ldVxDt x | .ldVxK x => r = x
  | .ldRegs x => r ≤ x
  | _ => False

theorem State.finish_keepsRegsBut (s : State) (x : Reg) (b : Byte) : KeepsRegsBut (· = x) s (s.finish x b) :=
  fun r hr => (s.getV_finish x r b).trans (if_neg hr)

theorem State.finishFlagFirst_keepsRegsBut (s : State) (x : Reg) (b f : Byte) :
    KeepsRegsBut (fun r => r = x ∨ r = Reg.vf) s (s.finishFlagFirst x b f) := by
  intro r hr
  obtain ⟨hx, hf⟩ := not_or.1 hr
  rw [State.getV_finishFlagFirst, if_neg hx, if_neg hf]

theorem State.finishFlagLast_keepsRegsBut (s : State) (x : Reg) (b f : Byte) :
    KeepsRegsBut (fun r => r = x ∨ r = Reg.vf) s (s.finishFlagLast x b f) := by
  intro r hr
  obtain ⟨hx, hf⟩ := not_or.1 hr
  rw [State.getV_finishFlagLast, if_neg hf, if_neg hx]

/-- A register that the instruction does not write reads as before. -/
theorem exec_keepsRegsBut {ins : Instr} {s t : State} (h : exec ins s = .next t) :
    KeepsRegsBut (fun r => WritesReg r ins) s t := by
  cases ins with
  | ldImm x | addImm x | rnd x | ldReg x | or x | and x | xor x | ldVxDt x =>
    exact Host.Outcome.next.inj h ▸ s.finish_keepsRegsBut x _
  | addReg x | sub x | subn x => exact Host.Outcome.next.inj h ▸ s.finishFlagFirst_keepsRegsBut x _ _
  | shr x | shl x => exact Host.Outcome.next.inj h ▸ s.finishFlagLast_keepsRegsBut x _ _
  | drw x y n => exact Host.Outcome.next.inj h ▸ fun r hr => State.getV_setV_ne (x := Reg.vf) _ _ hr
  | ldVxK x =>
    have e := Host.Outcome.next.inj h
    split at e
    · exact e ▸ fun _ _ => rfl
    · exact e ▸ s.finish_keepsRegsBut x _
  | ldRegs x => exact Host.Outcome.next.inj h ▸ fun r hr => (s.getElem_loadRegBlock x r _).trans (if_neg hr)
  | ret | call =>
    have e := Host.Outcome.next.inj h
    split at e <;> exact e ▸ fun _ _ => rfl
  | _ => exact Host.Outcome.next.inj h ▸ fun _ _ => rfl

/-- Settles O17: `VF` changes only where the instruction writes it, by `exec_keepsRegsBut`; the rows are those of `WritesReg`. -/
theorem vfWritersExactly : Obligations.VfWritersExactly := by
  intro ins s t h hne
  have hw : WritesReg Reg.vf ins := by
    by_contra hn
    exact hne (exec_keepsRegsBut h Reg.vf hn)
  cases ins with
  | addReg | sub | shr | subn | shl | drw => simp
  | ldImm x | addImm x | rnd x | ldReg x | or x | and x | xor x | ldVxDt x | ldVxK x =>
    obtain rfl : Reg.vf = x := hw
    simp
  | ldRegs x =>
    obtain rfl : x = Reg.vf := Fin.last_le_iff.1 hw
    simp
  | _ => exact absurd hw id

/-! ## `pc` after an instruction (R23, R74) -/

theorem pcPlus_two_of_npc {s t : State} (h : t.pc = s.npc) : PcPlus 2 s t := by
  rw [PcPlus, h, State.npc, BitVec.toNat_add]
  rfl

theorem State.skipIf_pcPlus_four (s : State) {c : Bool} (h : c = true) : PcPlus 4 s (s.skipIf c) := by
  subst h
  have hpc : (s.skipIf true).pc = s.pc + 4 := BitVec.add_assoc s.pc 2 2
  rw [PcPlus, hpc, BitVec.toNat_add]
  rfl

theorem State.skipIf_pcPlus_two (s : State) {c : Bool} (h : c = false) : PcPlus 2 s (s.skipIf c) := by
  subst h
  exact pcPlus_two_of_npc rfl

/-- A skip taken where its condition holds (R103, R105). -/
theorem State.skipIf_eq_pcPlus (s : State) (a b : Byte) : PcPlus (if a = b then 4 else 2) s (s.skipIf (a == b)) := by
  split
  · exact s.skipIf_pcPlus_four (beq_iff_eq.2 ‹_›)
  · exact s.skipIf_pcPlus_two (beq_eq_false_iff_ne.2 ‹_›)

/-- A skip taken where its condition fails (R104, R106). -/
theorem State.skipIf_ne_pcPlus (s : State) (a b : Byte) : PcPlus (if a = b then 2 else 4) s (s.skipIf (a != b)) := by
  split
  · exact s.skipIf_pcPlus_two (bne_eq_false_iff_eq.2 ‹_›)
  · exact s.skipIf_pcPlus_four (bne_iff_ne.2 ‹_›)

theorem keyHeld_eq_false_iff {inp : StepInput} {a : Byte} :
    keyHeld inp a = false ↔ ¬ ∃ k ∈ inp.keysHeld, k.val = a.toNat := by
  rw [← keyHeld_iff, Bool.not_eq_true]

/-- `nnn + V0` is below 65536, so the 16-bit sum is the sum (R107). -/
theorem wordOfAddr_add_wordOfByte_toNat (a : Addr12) (b : Byte) :
    (wordOfAddr a + wordOfByte b).toNat = a.toNat + b.toNat := by
  have ha := a.isLt
  have hb := b.isLt
  rw [BitVec.toNat_add, wordOfAddr_toNat, wordOfByte_toNat]
  omega

theorem execRet_pcRule {s t : State} (h : execRet s = .next t) : PcRule s t .ret := by
  by_cases hsp : 0 < s.sp.val
  · rw [execRet_of_nonempty hsp] at h
    exact Host.Outcome.next.inj h ▸ ⟨fun _ => rfl, fun h0 => absurd h0 (Nat.ne_of_gt hsp)⟩
  · rw [execRet_of_empty hsp] at h
    exact Host.Outcome.next.inj h ▸ ⟨fun hpos => absurd hpos hsp, fun _ => rfl⟩

theorem execCall_pcRule {nnn : Addr12} {s t : State} (h : execCall nnn s = .next t) : PcRule s t (.call nnn) := by
  by_cases hsp : s.sp.val < Config.stackDepth
  · rw [execCall_of_room nnn hsp] at h
    exact Host.Outcome.next.inj h ▸ ⟨fun _ => wordOfAddr_toNat nnn, fun hfull => absurd hfull (Nat.ne_of_lt hsp)⟩
  · rw [execCall_of_full nnn hsp] at h
    exact Host.Outcome.next.inj h ▸ ⟨fun hroom => absurd hroom hsp, fun _ => rfl⟩

theorem execLdVxK_pcRule {x : Reg} {s t : State} (h : execLdVxK x s = .next t) : PcRule s t (.ldVxK x) := by
  have e := Host.Outcome.next.inj h
  split at e
  next hk => exact ⟨fun _ => congrArg State.pc e.symm, fun hne => absurd hk hne⟩
  next k hk => exact ⟨fun hnone => absurd (hk.symm.trans hnone) (by simp), fun _ => pcPlus_two_of_npc (e ▸ rfl)⟩

/-- Settles O18: the control transfers, the skips and the stall have their own lemmas; all others end in `advance`. -/
theorem pcAfterInstruction : Obligations.PcAfterInstruction := by
  intro ins s t h
  cases ins with
  | ret => exact execRet_pcRule h
  | call nnn => exact execCall_pcRule h
  | ldVxK x => exact execLdVxK_pcRule h
  | jp nnn => exact Host.Outcome.next.inj h ▸ wordOfAddr_toNat nnn
  | jpV0 nnn => exact Host.Outcome.next.inj h ▸ wordOfAddr_add_wordOfByte_toNat nnn (s.getV 0)
  | seImm x kk => exact Host.Outcome.next.inj h ▸ s.skipIf_eq_pcPlus (s.getV x) kk
  | sneImm x kk => exact Host.Outcome.next.inj h ▸ s.skipIf_ne_pcPlus (s.getV x) kk
  | seReg x y => exact Host.Outcome.next.inj h ▸ s.skipIf_eq_pcPlus (s.getV x) (s.getV y)
  | sneReg x y => exact Host.Outcome.next.inj h ▸ s.skipIf_ne_pcPlus (s.getV x) (s.getV y)
  | skp x =>
    exact Host.Outcome.next.inj h ▸ ⟨fun hk => s.skipIf_pcPlus_four ((keyHeld_iff _ _).2 hk),
      fun hk => s.skipIf_pcPlus_two (keyHeld_eq_false_iff.2 hk)⟩
  | sknp x =>
    exact Host.Outcome.next.inj h ▸ ⟨fun hk => s.skipIf_pcPlus_two (congrArg not ((keyHeld_iff _ _).2 hk)),
      fun hk => s.skipIf_pcPlus_four (congrArg not (keyHeld_eq_false_iff.2 hk))⟩
  | ldRegs x =>
    have e : ((s.setRegs (s.loadRegBlock x s.i.toNat)).setI (s.blockEndI x)).advance = t := Host.Outcome.next.inj h
    exact pcPlus_two_of_npc (by simp [← e])
  | _ => exact pcPlus_two_of_npc (Host.Outcome.next.inj h ▸ rfl)

/-! ## `DIRTY` is read by no instruction (R29, R163) -/

/-- The state with another dirty flag. -/
def State.withDirty (s : State) (d : Bool) : State := { s with display := { s.display with dirty := d } }

/-- Two displays under drawing with the same pixels and the same collision so far; `DIRTY` may differ. -/
def SamePixels (a b : Display × Bool) : Prop := a.1.fb = b.1.fb ∧ a.2 = b.2

theorem SamePixels.plot {a b : Display × Bool} (h : SamePixels a b) (bit : Bool) (px py : Nat) :
    SamePixels (Display.plot a bit px py) (Display.plot b bit px py) := by
  obtain ⟨hfb, hhit⟩ := h
  cases bit with
  | false => exact ⟨hfb, hhit⟩
  | true => exact ⟨congrArg (·.flip px py) hfb, congrArg₂ (fun hit (fb : FrameBuffer) => hit || fb.pixel px py) hhit hfb⟩

theorem SamePixels.drawRow {a b : Display × Bool} (h : SamePixels a b) (row : Byte) (px py k : Nat) :
    SamePixels (Display.drawRow a row px py k) (Display.drawRow b row px py k) := by
  induction k with
  | zero => exact h
  | succ k ih => exact ih.plot _ _ _

theorem SamePixels.drawRows {a b : Display × Bool} (h : SamePixels a b) (rows : List Byte) (px py : Nat) :
    SamePixels (Display.drawRows a rows px py) (Display.drawRows b rows px py) := by
  induction rows generalizing a b py with
  | nil => exact h
  | cons row rows ih => exact ih (h.drawRow row px py 8) (py + 1)

/-- Drawing sets `DIRTY` whatever it was, so the two runs answer the same state. -/
theorem execDrw_withDirty (x y : Reg) (n : Nat) (s : State) (d : Bool) :
    execDrw x y n (s.withDirty d) = onNext (·.withDirty true) (execDrw x y n s) := by
  have hsame : SamePixels ((s.withDirty d).drawSprite x y n) (s.drawSprite x y n) :=
    SamePixels.drawRows (a := ((s.withDirty d).display, false)) (b := (s.display, false)) ⟨rfl, rfl⟩ _ _ _
  obtain ⟨hfb, hhit⟩ := hsame
  simp only [execDrw, onNext, hfb, hhit]
  rfl

theorem execRet_withDirty (s : State) (d : Bool) :
    execRet (s.withDirty d) = onNext (·.withDirty d) (execRet s) := by
  by_cases h : 0 < s.sp.val
  · rw [execRet_of_nonempty h]; exact execRet_of_nonempty (s := s.withDirty d) h
  · rw [execRet_of_empty h]; exact execRet_of_empty (s := s.withDirty d) h

theorem execCall_withDirty (nnn : Addr12) (s : State) (d : Bool) :
    execCall nnn (s.withDirty d) = onNext (·.withDirty d) (execCall nnn s) := by
  by_cases h : s.sp.val < Config.stackDepth
  · rw [execCall_of_room nnn h]; exact execCall_of_room nnn (s := s.withDirty d) h
  · rw [execCall_of_full nnn h]; exact execCall_of_full nnn (s := s.withDirty d) h

/-- A change of state that leaves the inputs alone and is not seen by the write of a key commutes with Fx0A, stall included. -/
theorem execLdVxK_comm {f : State → State} {x : Reg} {s : State} (hin : (f s).input = s.input)
    (hset : ∀ b, ((f s).setV x b).advance = f (s.setV x b).advance) :
    execLdVxK x (f s) = onNext f (execLdVxK x s) := by
  simp only [execLdVxK, onNext, hin]
  split
  · rfl
  · rw [hset]

/-- An instruction run with another dirty flag does the same up to the dirty flag. -/
theorem exec_withDirty (ins : Instr) (s : State) (d : Bool) :
    ∃ d', exec ins (s.withDirty d) = onNext (·.withDirty d') (exec ins s) := by
  cases ins with
  | cls => exact ⟨true, rfl⟩
  | drw x y n => exact ⟨true, execDrw_withDirty x y n s d⟩
  | ret => exact ⟨d, execRet_withDirty s d⟩
  | call nnn => exact ⟨d, execCall_withDirty nnn s d⟩
  | ldVxK x => exact ⟨d, execLdVxK_comm (f := (·.withDirty d)) rfl fun _ => rfl⟩
  | _ => exact ⟨d, rfl⟩

/-- Settles O20: the second run is the first with another dirty flag, by `exec_withDirty`. -/
theorem dirtyChangesNoResult : Obligations.DirtyChangesNoResult := by
  intro ins s d
  obtain ⟨t, ht⟩ := exec_next ins s
  obtain ⟨d', hu⟩ := exec_withDirty ins s d
  rw [ht] at hu
  exact ⟨t, t.withDirty d', ht, hu, rfl⟩

/-! ## The stack entries at or above `SP` are read by no instruction (R24) -/

/-- The state with other stack entries. -/
def State.withStack (s : State) (w : Vector Word 16) : State := { s with stack := w }

/-- Two stacks hold the same in the entries below depth `n`. -/
def AgreeBelow (n : Nat) (w w' : Vector Word 16) : Prop := ∀ k : Fin 16, k.val < n → w[k.val] = w'[k.val]

/-- A push onto both stacks extends the agreement by the entry pushed. -/
theorem AgreeBelow.set {n : Nat} {w w' : Vector Word 16} (h : AgreeBelow n w w') (hn : n < 16) (a : Word) :
    AgreeBelow (n + 1) (w.set n a) (w'.set n a) := by
  intro k hk
  rw [Vector.getElem_set, Vector.getElem_set]
  split
  · rfl
  · exact h k (by omega)

/-- Two runs of an instruction, from stacks that agree on the entries in use, answer states that differ only in entries not in use. -/
def ReadsStackBelowSp (ins : Instr) (s : State) (w : Vector Word 16) : Prop :=
  ∃ t w', exec ins s = .next t ∧ exec ins (s.withStack w) = .next (t.withStack w') ∧ AgreeBelow t.sp.val w' t.stack

theorem ret_readsStackBelowSp {s : State} {w : Vector Word 16} (hw : AgreeBelow s.sp.val w s.stack) :
    ReadsStackBelowSp .ret s w := by
  by_cases h : 0 < s.sp.val
  · have htop : (s.withStack w).top h = s.top h := hw ⟨s.sp.val - 1, by omega⟩ (Nat.sub_lt h Nat.one_pos)
    refine ⟨_, w, execRet_of_nonempty h, (execRet_of_nonempty (s := s.withStack w) h).trans ?_, fun k hk => hw k ?_⟩
    · rw [htop]; rfl
    · exact Nat.lt_of_lt_of_le hk (Nat.sub_le _ _)
  · exact ⟨_, w, execRet_of_empty h, execRet_of_empty (s := s.withStack w) h, hw⟩

theorem call_readsStackBelowSp (nnn : Addr12) {s : State} {w : Vector Word 16} (hw : AgreeBelow s.sp.val w s.stack) :
    ReadsStackBelowSp (.call nnn) s w := by
  by_cases h : s.sp.val < Config.stackDepth
  · exact ⟨_, w.set s.sp.val s.npc h, execCall_of_room nnn h, execCall_of_room nnn (s := s.withStack w) h, hw.set h s.npc⟩
  · exact ⟨_, w, execCall_of_full nnn h, execCall_of_full nnn (s := s.withStack w) h, hw⟩

/-- An instruction other than RET and CALL carries the stack along unread. -/
theorem exec_withStack {ins : Instr} (hret : ins ≠ .ret) (hcall : ∀ nnn, ins ≠ .call nnn) (s : State)
    (w : Vector Word 16) : exec ins (s.withStack w) = onNext (·.withStack w) (exec ins s) := by
  cases ins with
  | ret => exact absurd rfl hret
  | call nnn => exact absurd rfl (hcall nnn)
  | ldVxK x => exact execLdVxK_comm (f := (·.withStack w)) rfl fun _ => rfl
  | _ => rfl

theorem readsStackBelowSp_of_not_owner {ins : Instr} (hret : ins ≠ .ret) (hcall : ∀ nnn, ins ≠ .call nnn) {s : State}
    {w : Vector Word 16} (hw : AgreeBelow s.sp.val w s.stack) : ReadsStackBelowSp ins s w := by
  obtain ⟨t, ht⟩ := exec_next ins s
  have hu := exec_withStack hret hcall s w
  rw [ht] at hu
  have hkeep : KeepsStack s t := by
    by_contra hne
    rcases (exec_changed ht).stack_owner hne with h | ⟨nnn, h⟩
    · exact hret h
    · exact hcall nnn h
  obtain ⟨hsp, hstack⟩ := hkeep
  exact ⟨t, w, ht, hu, by rwa [hsp, hstack]⟩

/-- Settles O21: RET reads the entry below `SP`, CALL writes the one at `SP`, no other instruction looks at the stack. -/
theorem staleStackEntriesUnread : Obligations.StaleStackEntriesUnread := by
  intro ins s w hw
  have hreads : ReadsStackBelowSp ins s w := by
    by_cases hret : ins = .ret
    · exact hret ▸ ret_readsStackBelowSp hw
    by_cases hcall : ∃ nnn, ins = .call nnn
    · obtain ⟨nnn, rfl⟩ := hcall
      exact call_readsStackBelowSp nnn hw
    · exact readsStackBelowSp_of_not_owner hret (not_exists.1 hcall) hw
  obtain ⟨t, w', ht, hu, hagree⟩ := hreads
  exact ⟨t, t.withStack w', ht, hu, rfl, hagree⟩

/-! ## Reset (R34, R230, R231) -/

/-- Settles O12: no byte is listed, no fault is recorded. -/
theorem invariantAtReset : Obligations.InvariantAtReset :=
  ⟨rfl, trivial, fun _ => rfl⟩

/-- At power-on every address reads as the power-on contents. -/
theorem State.reset_memRead (a : Nat) (h : a < 4096) : State.reset.memRead a = Memory.unlisted a :=
  congrArg Memory.unlisted (Nat.mod_eq_of_lt h)

theorem Memory.unlisted_font (k : Nat) (h : k < 80) : Memory.unlisted k = fontBytes[k]'h :=
  (List.getElem_eq_getD 0).symm

theorem Memory.unlisted_above (a : Nat) (h : 80 ≤ a) : Memory.unlisted a = 0 :=
  List.getD_eq_default _ _ h

theorem Display.pixel_cleared (cx cy : Nat) : Display.cleared.fb.pixel cx cy = false :=
  Display.pixel_clear Display.cleared cx cy

theorem getElem_zeroRegs (r : Reg) : (Vector.replicate 16 (0 : Byte))[r.val] = 0 :=
  Vector.getElem_replicate r.isLt

theorem step_of_reset {s : State} (h : s.nextEvent = .reset) : step s = .next s.popEvent.hostReset := by
  rw [step, h]

theorem State.hostReset_memRead_font {s : State} (hm : s.MemOk) (k : Nat) (hk : k < 80) :
    s.hostReset.memRead k = fontBytes[k]'hk := by
  obtain ⟨m, hfont, ht⟩ := s.hostReset_eq
  have hload : m.load k = fontBytes[k]'hk := by rw [hfont, Memory.load_loadFont hm k hk]
  rw [ht]
  exact hload

theorem State.hostReset_memRead_above (s : State) (a : Nat) (hlo : 80 ≤ a) (hhi : a < 4096) :
    s.hostReset.memRead a = s.memRead a := by
  obtain ⟨m, hfont, ht⟩ := s.hostReset_eq
  have hload : m.load a = s.mem.load a := by
    rw [hfont, Memory.load_loadFont_above s.mem a (by rwa [Nat.mod_eq_of_lt hhi])]
  rw [ht]
  exact hload

/-- Settles O23: `State.reset` field by field, and `Reset` with the font loaded again. -/
theorem resetLeavesSpecValues : Obligations.ResetLeavesSpecValues := by
  refine ⟨⟨getElem_zeroRegs, rfl, rfl, rfl, rfl, rfl, fun k hk => ?_, fun a hlo hhi => ?_, Display.pixel_cleared, rfl, rfl⟩,
    fun s hm hr => ?_⟩
  · rw [State.reset_memRead k (by omega), Memory.unlisted_font k hk]
  · rw [State.reset_memRead a hhi, Memory.unlisted_above a hlo]
  · exact ⟨_, step_of_reset hr, getElem_zeroRegs, rfl, rfl, rfl, rfl, rfl, State.hostReset_memRead_font hm,
      s.popEvent.hostReset_memRead_above, Display.pixel_clear s.display, rfl, rfl, rfl, rfl, rfl⟩

end Sys2Proof.Machine

/-! Memory (20_memory): the word fetched as a number, a store seen by the next fetch, what `load_program` copies, and the only events that stop the model. -/

namespace Sys2Proof.Machine

/-! ## The fetch (R51, R52) -/

@[simp] theorem State.memRead_mod (s : State) (a : Nat) : s.memRead (a % 4096) = s.memRead a :=
  Memory.load_mod s.mem a

/-- The word fetched lies at any address that `pc` names after reduction. -/
theorem State.fetchWord_toNat_at {s : State} {a : Nat} (h : s.pc.toNat % 4096 = a % 4096) :
    s.fetchWord.toNat = (s.memRead a).toNat * 256 + (s.memRead (a + 1)).toNat := by
  have hlow : (s.pc.toNat + 1) % 4096 = (a + 1) % 4096 := by omega
  rw [State.fetchWord, opOfBytes_toNat, s.memRead_congr h, s.memRead_congr hlow]

/-- Settles O7: `pc` names itself, and where it reduces to 4095 the byte after that is the one at address 0. -/
theorem fetchIsBigEndian : Obligations.FetchIsBigEndian := by
  intro s
  refine ⟨?_, fun hlast => ?_⟩
  · rw [State.memRead_mod, State.memRead_mod, State.fetchWord_toNat_at rfl]
  · have hwrap : s.memRead (4095 + 1) = s.memRead 0 := s.memRead_congr rfl
    rw [State.fetchWord_toNat_at (a := 4095) hlast, hwrap]

/-! ## A stored block under the next fetch (R60, R144) -/

/-- The state Fx55 leaves: the block stored at `I`, `I` moved by the quirk, `pc` moved on (R144). -/
def State.afterStRegs (s : State) (x : Reg) : State :=
  ((s.memWrite s.i.toNat (s.regBlock x)).setI (s.blockEndI x)).advance

theorem execStRegs_eq (x : Reg) (s : State) : execStRegs x s = .next (s.afterStRegs x) := rfl

theorem State.afterStRegs_pc (s : State) (x : Reg) : (s.afterStRegs x).pc = s.npc := rfl

theorem State.npc_toNat (s : State) : s.npc.toNat = (s.pc.toNat + 2) % 65536 := BitVec.toNat_add s.pc 2

/-- After Fx55 register `r` of the block lies at `I + r` (R144). -/
theorem State.afterStRegs_memRead {s : State} (hm : s.MemOk) {x r : Reg} (hr : r ≤ x) :
    (s.afterStRegs x).memRead (s.i.toNat + r.val) = s.getV r := by
  have hlen := s.length_regBlock x
  have hfits : (s.regBlock x).length ≤ Config.memSize := hlen ▸ x.isLt.trans (by decide)
  have hk : r.val < (s.regBlock x).length := hlen ▸ Nat.lt_succ_of_le hr
  calc (s.afterStRegs x).memRead (s.i.toNat + r.val)
      = (s.memWrite s.i.toNat (s.regBlock x)).memRead (s.i.toNat + r.val) := rfl
    _ = (s.regBlock x)[r.val] := State.memRead_memWrite_in _ _ _ hm hfits hk
    _ = s.getV r := s.getElem_regBlock x r.val hk

/-- Settles O52: `pc` then names the address of `I`, where the block has `V0` and, as `x` is not 0, `V1` after it. -/
theorem storeSeenByNextFetch : Obligations.StoreSeenByNextFetch := by
  intro x s hm hx hi
  have hpc : (s.afterStRegs x).pc.toNat % 4096 = s.i.toNat % 4096 := by
    rw [State.afterStRegs_pc, State.npc_toNat]
    omega
  have hv0 : (s.afterStRegs x).memRead s.i.toNat = s.getV 0 := State.afterStRegs_memRead hm (Fin.zero_le x)
  have hv1 : (s.afterStRegs x).memRead (s.i.toNat + 1) = s.getV 1 := State.afterStRegs_memRead hm (r := 1) hx
  exact ⟨_, execStRegs_eq x s, by rw [State.fetchWord_toNat_at hpc, hv0, hv1]⟩

/-! ## `load_program` (R63; log 19) -/

theorem hostLoad_of_fits {s : State} {image : List Byte} (hopen : s.loadable = true)
    (hfits : image.length ≤ Config.maxImage) : hostLoad image s = .next (s.loadProgram image) := by
  rw [hostLoad, if_pos hopen, if_pos hfits]

theorem hostLoad_of_tooLong {s : State} {image : List Byte} (hopen : s.loadable = true)
    (hlong : Config.maxImage < image.length) : hostLoad image s = .refused .imageTooLong := by
  rw [hostLoad, if_pos hopen, if_neg (Nat.not_le_of_gt hlong)]

theorem hostLoad_of_closed {s : State} (image : List Byte) (hclosed : s.loadable = false) :
    hostLoad image s = .fault .loadOutsideWindow := by
  rw [hostLoad, hclosed, if_neg Bool.false_ne_true]

theorem step_of_loadProgram {s : State} {image : List Byte} (h : s.nextEvent = .loadProgram image) :
    step s = hostLoad image s.popEvent := by
  rw [step, h]

theorem State.loadProgram_memRead_in {s : State} (hm : s.MemOk) {image : List Byte}
    (hfits : image.length ≤ Config.maxImage) {k : Nat} (hk : k < image.length) :
    (s.loadProgram image).memRead (Config.loadOffset + k) = image[k] :=
  State.memRead_memWrite_in Config.loadOffset k image hm (hfits.trans (by decide)) hk

theorem State.loadProgram_keepsMemOutside (s : State) (image : List Byte) :
    KeepsMemOutside Config.loadOffset image.length s (s.loadProgram image) :=
  fun a => s.memRead_memWrite_out Config.loadOffset a image

/-- Settles O28: the three cases of `hostLoad`; where it loads, the memory is the image stored as one block. -/
theorem loadProgramCopiesImage : Obligations.LoadProgramCopiesImage := by
  intro s image hev
  rw [step_of_loadProgram hev]
  refine ⟨fun hm hopen hfits => ?_, fun hclosed => ?_, fun hopen hlong => ?_⟩
  · exact ⟨_, hostLoad_of_fits (s := s.popEvent) hopen hfits,
      fun k hk => State.loadProgram_memRead_in (s := s.popEvent) hm hfits hk,
      s.popEvent.loadProgram_keepsMemOutside image, rfl⟩
  · exact hostLoad_of_closed (s := s.popEvent) image hclosed
  · exact hostLoad_of_tooLong (s := s.popEvent) hopen hlong

/-! ## What stops the model (R63, U4; log 19) -/

/-- The engine never stops: halted, an undecoded word and every instruction answer a next state (R74, R201, R207). -/
theorem engineCore_next (s : State) : ∃ t, engineCore s = .next t := by
  unfold engineCore
  split
  · exact ⟨s, rfl⟩
  · split
    next ins _ => exact exec_next ins s
    next => exact ⟨_, rfl⟩

theorem engineStep_next (s : State) : ∃ t, engineStep s = .next t := by
  obtain ⟨u, hu⟩ := engineCore_next s
  exact ⟨u.stepDone, by rw [engineStep, hu]; rfl⟩

/-- An event other than `load_program` answers a next state. -/
theorem step_next_of_not_loadProgram {s : State} (h : ∀ image, s.nextEvent ≠ .loadProgram image) :
    ∃ t, step s = .next t := by
  unfold step
  cases hev : s.nextEvent with
  | step inp => exact engineStep_next s
  | loadProgram image => exact absurd hev (h image)
  | _ => exact ⟨_, rfl⟩

/-- Settles O15: no event but `load_program` can stop, and that one by the three cases of `hostLoad`. -/
theorem onlyBadLoadsStop : Obligations.OnlyBadLoadsStop := by
  intro s
  by_cases hload : ∃ image, s.nextEvent = .loadProgram image
  · obtain ⟨image, hev⟩ := hload
    have hstep := step_of_loadProgram hev
    cases hwin : s.loadable with
    | false => exact .inr (.inl ⟨image, hev, rfl, hstep.trans (hostLoad_of_closed (s := s.popEvent) image hwin)⟩)
    | true =>
      rcases Nat.lt_or_ge 3584 image.length with hlong | hfits
      · exact .inr (.inr ⟨image, hev, rfl, hlong, hstep.trans (hostLoad_of_tooLong (s := s.popEvent) hwin hlong)⟩)
      · exact .inl ⟨_, hstep.trans (hostLoad_of_fits (s := s.popEvent) hwin hfits)⟩
  · exact .inl (step_next_of_not_loadProgram (not_exists.1 hload))

end Sys2Proof.Machine

/-! Encoding (30_encoding): the decoder inverts the encoder, what every word decodes to, the opcode map selects one row per legal word and none for an illegal one, and a step runs the word that lies at `pc`. -/

namespace Sys2Proof.Machine

/-! ## The decoder inverts the encoder (R71, R72, R76) -/

/-- The row count of Dxyn survives its 4-bit field. -/
theorem toNat_rowCount {n : Nat} (h : n ≤ 15) : (BitVec.ofNat 4 n).toNat = n :=
  (BitVec.toNat_ofNat n 4).trans (Nat.mod_eq_of_lt (by omega))

/-- By format: the fields of the encoded opcode are the operands, and the family with the secondary field selects the arm. -/
theorem decodeWord_encode {ins : Instr} (h : ins.wellFormed = true) : decodeWord (encode ins) = .ok ins := by
  cases ins with
  | cls | ret => rfl
  | jp nnn | call nnn | ldI nnn | jpV0 nnn => simp [encode, decodeWord]
  | seImm x kk | sneImm x kk | ldImm x kk | addImm x kk | rnd x kk => simp [encode, decodeWord]
  | seReg x y | sneReg x y => simp [encode, decodeWord]
  | ldReg x y | or x y | and x y | xor x y | addReg x y | sub x y | shr x y | subn x y | shl x y =>
    simp [encode, decodeWord, decodeFam8]
  | drw x y n =>
    have hn : n ≤ 15 := of_decide_eq_true h
    simp [encode, decodeWord, toNat_rowCount hn]
  | skp x | sknp x => simp [encode, decodeWord]
  | ldVxDt x | ldVxK x | ldDtVx x | ldStVx x | addI x | ldF x | ldB x | stRegs x | ldRegs x =>
    simp [encode, decodeWord, decodeFamF]

/-- A word given as the number of an instruction's opcode decodes to it. -/
theorem encoded_of_toNat {ins : Instr} {w : Nat} (hw : ins.wellFormed = true) (h : w = (encode ins).toNat) :
    Encoded w ins := by
  rw [Encoded, h, BitVec.ofNat_toNat, BitVec.setWidth_eq]
  exact decodeWord_encode hw

/-- Two bytes and no more decode to what their word decodes to (R52, R70). -/
theorem decode_pair_eq_ok_iff {hi lo : Byte} {ins : Instr} :
    decode [hi, lo] = .ok (ins, []) ↔ decodeWord (opOfBytes hi lo) = .ok ins := by
  cases h : decodeWord (opOfBytes hi lo) <;> simp [decode, h, Except.map]

/-- An opcode's bytes decode as its word, and what follows them is left (R70). -/
theorem decode_opBytes_append (op : Word) (rest : List Byte) :
    decode (opBytes op ++ rest) = (decodeWord op).map fun ins => (ins, rest) := by
  conv_rhs => rw [← opOfBytes_bytes op]
  rfl

/-- Settles O2: `decodeWord_encode`, for the word and for its two bytes. -/
theorem decodeOfEncode : Obligations.DecodeOfEncode := by
  intro ins hw
  have hword := decodeWord_encode hw
  exact ⟨hword, fun rest => by rw [decode_opBytes_append, hword]; rfl⟩

/-- Settles O1: each of the ten words is its instruction's opcode; the other two are decoded. -/
theorem specWordsDecode : Obligations.SpecWordsDecode :=
  ⟨encoded_of_toNat rfl rfl, encoded_of_toNat rfl rfl, encoded_of_toNat rfl rfl, encoded_of_toNat rfl rfl,
    encoded_of_toNat rfl rfl, encoded_of_toNat rfl rfl, encoded_of_toNat rfl rfl, encoded_of_toNat rfl rfl,
    encoded_of_toNat rfl rfl, encoded_of_toNat rfl rfl, rfl, rfl⟩

/-! ## What a word decodes to, said once (R75, R77) -/

/-- The table of illegal words in the fields that the dispatch tests (R71, R77). -/
theorem illegalWord_iff_fields (op : Word) : IllegalWord op.toNat ↔
    ((opFam op).toNat = 0x0 ∧ op ≠ 0x00E0 ∧ op ≠ 0x00EE) ∨
    ((opFam op).toNat = 0x5 ∧ opN op ≠ 0) ∨
    ((opFam op).toNat = 0x8 ∧ (opN op).toNat ∈ [8, 9, 0xA, 0xB, 0xC, 0xD, 0xF]) ∨
    ((opFam op).toNat = 0x9 ∧ opN op ≠ 0) ∨
    ((opFam op).toNat = 0xE ∧ opKK op ≠ 0x9E ∧ opKK op ≠ 0xA1) ∨
    ((opFam op).toNat = 0xF ∧ (opKK op).toNat ∉ [0x07, 0x0A, 0x15, 0x18, 0x1E, 0x29, 0x33, 0x55, 0x65]) := by
  simp [IllegalWord, opFam_toNat, opN_toNat, opKK_toNat, ← BitVec.toNat_inj]

/-- The answer of decoding for a word: a well-formed instruction whose opcode is the word, or the word reported as illegal. -/
inductive DecodesTo (op : Word) : Except DecodeError Instr → Prop where
  | legal {ins : Instr} (hw : ins.wellFormed = true) (he : encode ins = op) : DecodesTo op (.ok ins)
  | illegal (h : IllegalWord op.toNat) : DecodesTo op (.error (.unknownOpcode op))

section
variable {op : Word} {f k : Nat}

theorem eq_ofNat_of_toNat {w : Nat} {b : BitVec w} (h : b.toNat = k) : b = BitVec.ofNat w k := by
  rw [← h, BitVec.ofNat_toNat, BitVec.setWidth_eq]

theorem encodeA_of_fam (hf : (opFam op).toNat = f) : encodeA (BitVec.ofNat 4 f) (opNNN op) = op :=
  eq_ofNat_of_toNat hf ▸ encodeA_fields op

theorem encodeXK_of_fam (hf : (opFam op).toNat = f) : encodeXK (BitVec.ofNat 4 f) (opX op) (opKK op) = op :=
  eq_ofNat_of_toNat hf ▸ encodeXK_fields op

theorem encodeXYN_of_fam (hf : (opFam op).toNat = f) :
    encodeXYN (BitVec.ofNat 4 f) (opX op) (opY op) (opN op) = op :=
  eq_ofNat_of_toNat hf ▸ encodeXYN_fields op

theorem encodeXK_of_fam_kk (hf : (opFam op).toNat = f) (hk : (opKK op).toNat = k) :
    encodeXK (BitVec.ofNat 4 f) (opX op) (BitVec.ofNat 8 k) = op :=
  eq_ofNat_of_toNat hk ▸ encodeXK_of_fam hf

theorem encodeXYN_of_fam_n (hf : (opFam op).toNat = f) (hn : (opN op).toNat = k) :
    encodeXYN (BitVec.ofNat 4 f) (opX op) (opY op) (BitVec.ofNat 4 k) = op :=
  eq_ofNat_of_toNat hn ▸ encodeXYN_of_fam hf

/-- Family 8, where the low nibble selects the operation. -/
theorem decodeFam8_decodesTo (hf : (opFam op).toNat = 8) : DecodesTo op (decodeFam8 op) := by
  unfold decodeFam8
  split
  case h_10 =>
    have hlt := (opN op).isLt
    have hn : (opN op).toNat ∈ [8, 9, 0xA, 0xB, 0xC, 0xD, 0xF] := by
      simp only [List.mem_cons, List.not_mem_nil, imp_false] at *
      omega
    exact .illegal ((illegalWord_iff_fields op).2 (by simp [hf, hn]))
  all_goals exact .legal rfl (encodeXYN_of_fam_n hf ‹_›)

/-- Family F, where the low byte selects the operation. -/
theorem decodeFamF_decodesTo (hf : (opFam op).toNat = 15) : DecodesTo op (decodeFamF op) := by
  unfold decodeFamF
  split
  case h_10 =>
    have hk : (opKK op).toNat ∉ [0x07, 0x0A, 0x15, 0x18, 0x1E, 0x29, 0x33, 0x55, 0x65] := by
      simp only [imp_false] at *
      simp [*]
    exact .illegal ((illegalWord_iff_fields op).2 (by simp [hf, hk]))
  all_goals exact .legal rfl (encodeXK_of_fam_kk hf ‹_›)

end

/-- By the dispatch on the family (arm `k + 1` of the match is family `k`): an arm answers the instruction that these fields encode, or reports a word of its row of the table of illegal words. -/
theorem decodeWord_decodesTo (op : Word) : DecodesTo op (decodeWord op) := by
  have illegal := fun h => DecodesTo.illegal ((illegalWord_iff_fields op).2 h)
  unfold decodeWord
  split <;> rename_i hf
  case h_1 =>
    split
    next hcls => exact .legal rfl hcls.symm
    next hcls =>
      split
      next hret => exact .legal rfl hret.symm
      next hret => exact illegal (.inl ⟨hf, hcls, hret⟩)
  case h_2 | h_3 | h_11 | h_12 => exact .legal rfl (encodeA_of_fam hf)
  case h_4 | h_5 | h_7 | h_8 | h_13 => exact .legal rfl (encodeXK_of_fam hf)
  case h_6 | h_10 =>
    split
    next hn => exact .legal rfl (encodeXYN_of_fam_n hf (congrArg BitVec.toNat hn))
    next hn => exact illegal (by simpa [hf] using hn)
  case h_9 => exact decodeFam8_decodesTo hf
  case h_14 => exact .legal (decide_eq_true (Nat.le_of_lt_succ (opN op).isLt)) (encodeXYN_of_fam_n hf rfl)
  case h_15 =>
    split
    next hk => exact .legal rfl (encodeXK_of_fam_kk hf (congrArg BitVec.toNat hk))
    next hskp =>
      split
      next hk => exact .legal rfl (encodeXK_of_fam_kk hf (congrArg BitVec.toNat hk))
      next hsknp => exact illegal (by simpa [hf] using ⟨hskp, hsknp⟩)
  case h_16 => exact decodeFamF_decodesTo hf
  case h_17 =>
    have hlt := (opFam op).isLt
    simp only [imp_false] at *
    omega

/-- Settles O3: the legal case of `decodeWord_decodesTo`. -/
theorem encodeOfDecode : Obligations.EncodeOfDecode := by
  intro op ins h
  have hd := decodeWord_decodesTo op
  rw [h] at hd
  cases hd with
  | legal hw he => exact ⟨hw, he⟩

/-! ## The opcode map as a match of masked words (R76, R77) -/

/-- The opcode of every instruction selects the row of that instruction. -/
theorem encode_selects_row : ∀ ins, Laws.MatchesRow.Statement ins :=
  open Laws.MatchesRow in fun
    | .cls => cls | .ret => ret | .jp nnn => jp nnn | .call nnn => call nnn
    | .seImm x kk => seImm x kk | .sneImm x kk => sneImm x kk | .seReg x y => seReg x y
    | .ldImm x kk => ldImm x kk | .addImm x kk => addImm x kk
    | .ldReg x y => ldReg x y | .or x y => or x y | .and x y => and x y | .xor x y => xor x y
    | .addReg x y => addReg x y | .sub x y => sub x y | .shr x y => shr x y | .subn x y => subn x y | .shl x y => shl x y
    | .sneReg x y => sneReg x y | .ldI nnn => ldI nnn | .jpV0 nnn => jpV0 nnn | .rnd x kk => rnd x kk
    | .drw x y n => drw x y n | .skp x => skp x | .sknp x => sknp x
    | .ldVxDt x => ldVxDt x | .ldVxK x => ldVxK x | .ldDtVx x => ldDtVx x | .ldStVx x => ldStVx x | .addI x => addI x
    | .ldF x => ldF x | .ldB x => ldB x | .stRegs x => stRegs x | .ldRegs x => ldRegs x

/-- No word selects two rows: any two rows differ in a bit that both their masks keep. -/
theorem opcodeMap_disjoint : opcodeMap.Pairwise fun r r' => r.pattern &&& r'.mask ≠ r'.pattern &&& r.mask := by
  decide

/-- A member that satisfies `p` is all that a filter by `p` leaves, where `p` excludes itself along the list. -/
theorem filter_eq_singleton {α : Type} {R : α → α → Prop} {p : α → Bool} {l : List α} {a : α} (hl : l.Pairwise R)
    (hp : ∀ b c, p b → p c → ¬ R b c) (ha : a ∈ l) (hpa : p a) : l.filter p = [a] := by
  have hmem : a ∈ l.filter p := List.mem_filter.2 ⟨ha, hpa⟩
  have hpair := hl.filter p
  have hall : ∀ b ∈ l.filter p, p b := fun b hb => (List.mem_filter.1 hb).2
  match hf : l.filter p with
  | [] => simp [hf] at hmem
  | [b] => rw [hf, List.mem_singleton] at hmem; rw [hmem]
  | b :: c :: rest =>
    rw [hf] at hpair hall
    exact absurd (List.rel_of_pairwise_cons hpair (List.mem_cons_self ..))
      (hp b c (hall b (by simp)) (hall c (by simp)))

/-- A row that a word selects is the only one. -/
theorem opcodeMap_filter_eq_singleton {op : Word} {row : OpcodeRow} (hmem : row ∈ opcodeMap)
    (hsel : op &&& row.mask = row.pattern) : opcodeMap.filter (fun r => op &&& r.mask = r.pattern) = [row] := by
  refine filter_eq_singleton opcodeMap_disjoint (fun r r' hr hr' => ?_) hmem (decide_eq_true hsel)
  rw [← of_decide_eq_true hr, ← of_decide_eq_true hr', BitVec.and_assoc, BitVec.and_assoc, BitVec.and_comm r.mask]
  exact not_not_intro rfl

section
variable (op : Word)

/-- The mask F000 keeps the family. -/
theorem toNat_and_F000 : (op &&& 0xF000).toNat = op.toNat / 4096 * 4096 := by
  have h := Laws.MatchesRow.mask_encodeA (opFam op) (opNNN op)
  rw [encodeA_fields] at h
  rw [h, encodeA_toNat, opFam_toNat]
  simp

/-- The mask F0FF keeps the family and the low byte. -/
theorem toNat_and_F0FF : (op &&& 0xF0FF).toNat = op.toNat / 4096 * 4096 + op.toNat % 256 := by
  have h := Laws.MatchesRow.mask_encodeX (opFam op) (opX op) (opKK op)
  rw [encodeXK_fields] at h
  rw [h, encodeXK_toNat, opFam_toNat, opKK_toNat]
  simp

/-- The mask F00F keeps the family and the low nibble. -/
theorem toNat_and_F00F : (op &&& 0xF00F).toNat = op.toNat / 4096 * 4096 + op.toNat % 16 := by
  have h := Laws.MatchesRow.mask_encodeXY (opFam op) (opX op) (opY op) (opN op)
  rw [encodeXYN_fields] at h
  rw [h, encodeXYN_toNat, opFam_toNat, opN_toNat]
  simp

theorem and_FFFF : op &&& 0xFFFF = op := BitVec.and_allOnes

end

/-- A word of the table of illegal words selects no row. -/
theorem not_selects_of_illegalWord {op : Word} (h : IllegalWord op.toNat) :
    ∀ row ∈ opcodeMap, op &&& row.mask ≠ row.pattern := by
  simp only [opcodeMap, List.cons_append, List.nil_append, List.forall_mem_cons, List.not_mem_nil, false_imp_iff, implies_true,
    ne_eq, ← BitVec.toNat_inj, toNat_and_F000, toNat_and_F0FF, toNat_and_F00F, and_FFFF, BitVec.reduceToNat, and_true]
  simp only [IllegalWord, List.mem_cons, List.not_mem_nil, or_false] at h
  omega

theorem opcodeMap_filter_eq_nil {op : Word} (h : IllegalWord op.toNat) :
    opcodeMap.filter (fun r => op &&& r.mask = r.pattern) = [] :=
  List.filter_eq_nil_iff.2 fun row hmem => by simpa using not_selects_of_illegalWord h row hmem

/-- Settles O4: a legal word by the row of its instruction, an illegal one by the table. -/
theorem dispatchAgreesWithOpcodeMap : Obligations.DispatchAgreesWithOpcodeMap := by
  intro op
  match decodeWord op, decodeWord_decodesTo op with
  | .ok ins, .legal _ he =>
    obtain ⟨row, hmem, hname, hsel⟩ := encode_selects_row ins
    exact .inl ⟨ins, rfl, row, opcodeMap_filter_eq_singleton hmem (he ▸ hsel), hname⟩
  | .error _, .illegal hill => exact .inr ⟨rfl, opcodeMap_filter_eq_nil hill⟩

/-- Settles O5: an illegal word selects no row, so it is no instruction's opcode. -/
theorem illegalWordsExactly : Obligations.IllegalWordsExactly := by
  intro op
  match decodeWord op, decodeWord_decodesTo op with
  | .ok ins, .legal _ he =>
    obtain ⟨row, hmem, -, hsel⟩ := encode_selects_row ins
    exact iff_of_false (by simp) fun hill => not_selects_of_illegalWord hill row hmem (he ▸ hsel)
  | .error _, .illegal hill => exact iff_of_true rfl hill

/-! ## The instruction cycle (R74) -/

/-- A `Step` that is not halted runs the instruction that the word at `pc` decodes to, and books the event. -/
theorem step_of_decoded {s t : State} {inp : StepInput} {ins : Instr} (hev : s.nextEvent = .step inp)
    (hrun : s.fault.cause = .none) (hdec : decodeWord s.fetchWord = .ok ins) (hexec : exec ins s = .next t) :
    step s = .next t.stepDone := by
  have hhalt : s.halted = false := decide_eq_false (not_not_intro hrun)
  simp only [step, hev, engineStep, engineCore, hhalt, hdec, hexec, onNext, Bool.false_eq_true, if_false]

/-- Settles O6: the two bytes at `pc` are the word fetched. -/
theorem stepRunsDecodedInstruction : Obligations.StepRunsDecodedInstruction :=
  fun _ _ _ _ hev hrun hdec hexec =>
    ⟨State.input_of_nextEvent hev, step_of_decoded hev hrun (decode_pair_eq_ok_iff.1 hdec) hexec⟩

/-! ## The word the host places (log 21) -/

theorem decodeTableWord_eq_some_iff {nbits w : Nat} {ins : Instr} :
    decodeTableWord nbits w = some ins ↔ decodeWord (tableOp nbits w) = .ok ins := by
  have hbytes := decode_opBytes_append (tableOp nbits w) []
  rw [List.append_nil] at hbytes
  rw [decodeTableWord, hbytes]
  cases decodeWord (tableOp nbits w) <;> simp [Except.map]

/-- After `dropToStep` the queue is empty or starts with a `Step`. -/
theorem dropToStep_cases (es : List Event) : dropToStep es = [] ∨ ∃ inp es', dropToStep es = .step inp :: es' := by
  induction es with
  | nil => exact .inl rfl
  | cons e es ih =>
    cases e with
    | step inp => exact .inr ⟨inp, es, rfl⟩
    | _ => exact ih

theorem State.placeOp_nextEvent (s : State) (op : Word) : ∃ inp, (s.placeOp op).nextEvent = .step inp := by
  have hq : (s.placeOp op).events = dropToStep s.events := rfl
  rcases dropToStep_cases s.events with h | ⟨inp, es, h⟩
  · exact ⟨_, by rw [State.nextEvent, hq, h]⟩
  · exact ⟨inp, by rw [State.nextEvent, hq, h]⟩

theorem State.placeOp_fetchWord {s : State} (hm : s.MemOk) (op : Word) : (s.placeOp op).fetchWord = op := by
  have hread (k : Nat) (hk : k < 2) : (s.placeOp op).memRead (s.pc.toNat + k) = (opBytes op)[k]'hk :=
    State.memRead_memWrite_in s.pc.toNat k (opBytes op) hm (by decide : 2 ≤ Config.memSize) hk
  calc (s.placeOp op).fetchWord
      = opOfBytes ((s.placeOp op).memRead (s.pc.toNat + 0)) ((s.placeOp op).memRead (s.pc.toNat + 1)) := rfl
    _ = opOfBytes (op.extractLsb' 8 8) (op.extractLsb' 0 8) := by rw [hread 0 (by decide), hread 1 (by decide)]; rfl
    _ = op := opOfBytes_bytes op

/-- Settles O30: the word placed is the word fetched, the latch is clear, and a `Step` comes next. -/
theorem placedWordRunsNext : Obligations.PlacedWordRunsNext := by
  intro s t w ins hm hdec hexec
  obtain ⟨inp, hev⟩ := s.placeOp_nextEvent (tableOp 16 w)
  have hword := State.placeOp_fetchWord hm (tableOp 16 w)
  exact step_of_decoded hev rfl (hword ▸ decodeTableWord_eq_some_iff.1 hdec) hexec

end Sys2Proof.Machine

/-! Control transfer (40_flow_and_skip): what a jump, a skip, a call and a return change and leave as it was, that the entry a CALL pushes is the one the next RET pops, and the words of the eight instructions. -/

namespace Sys2Proof.Machine

/-! ## Words that do not decode (R77) -/

theorem not_encoded_of_illegalWord {w : Nat} (hlt : w < 65536) (h : IllegalWord w) (ins : Instr) : ¬ Encoded w ins := by
  have hw : (BitVec.ofNat 16 w).toNat = w := (BitVec.toNat_ofNat w 16).trans (Nat.mod_eq_of_lt hlt)
  have herr := (illegalWordsExactly (BitVec.ofNat 16 w)).2 (hw.symm ▸ h)
  rw [Encoded, herr]
  exact nofun

/-- 5xyn and 9xyn with a low nibble other than 0 (D8; log 17). -/
theorem illegalWord_of_low_nibble {f n : Nat} (hf : f = 5 ∨ f = 9) (x y : Reg) (hpos : 0 < n) (hlt : n < 16) :
    IllegalWord (f * 4096 + x.val * 256 + y.val * 16 + n) := by
  have hx := x.isLt
  have hy := y.isLt
  obtain rfl | rfl := hf
  · exact .inr (.inl (by omega))
  · exact .inr (.inr (.inr (.inl (by omega))))

/-! ## Writing `pc` alone -/

theorem State.setPc_onlyPc (s : State) (a : Word) : OnlyPc s (s.setPc a) :=
  ⟨fun _ => rfl, rfl, ⟨rfl, rfl⟩, ⟨rfl, rfl⟩, fun _ => rfl, rfl, rfl, rfl, rfl, rfl, rfl, rfl⟩

theorem State.skipIf_onlyPc (s : State) (c : Bool) : OnlyPc s (s.skipIf c) := s.setPc_onlyPc _

/-- Settles O32: `setPc` with `nnn`. -/
theorem jumpSetsPc : Obligations.JumpSetsPc := fun nnn s =>
  ⟨encoded_of_toNat rfl (encodeA_toNat 0x1 nnn).symm,
    s.setPc (wordOfAddr nnn), rfl, wordOfAddr_toNat nnn, s.setPc_onlyPc _⟩

/-- Settles O37: `setPc` with a sum that does not wrap. -/
theorem indexedJump : Obligations.IndexedJump := fun nnn s =>
  ⟨encoded_of_toNat rfl (encodeA_toNat 0xB nnn).symm,
    s.setPc (wordOfAddr nnn + wordOfByte (s.getV 0)), rfl,
    wordOfAddr_add_wordOfByte_toNat nnn (s.getV 0), s.setPc_onlyPc _⟩

/-- Settles O35: `skipIf` on the two comparisons. -/
theorem skipsOnImmediate : Obligations.SkipsOnImmediate := fun x kk s =>
  ⟨encoded_of_toNat rfl (encodeXK_toNat 0x3 x kk).symm, encoded_of_toNat rfl (encodeXK_toNat 0x4 x kk).symm,
    ⟨_, rfl, s.skipIf_eq_pcPlus (s.getV x) kk, s.skipIf_onlyPc _⟩,
    ⟨_, rfl, s.skipIf_ne_pcPlus (s.getV x) kk, s.skipIf_onlyPc _⟩⟩

/-- Settles O36: `skipIf` on the two comparisons; with another low nibble the word is illegal. -/
theorem skipsOnRegister : Obligations.SkipsOnRegister := by
  intro x y s
  have hx := x.isLt
  have hy := y.isLt
  refine ⟨encoded_of_toNat rfl (encodeXYN_toNat 0x5 x y 0).symm, encoded_of_toNat rfl (encodeXYN_toNat 0x9 x y 0).symm,
    ⟨_, rfl, s.skipIf_eq_pcPlus (s.getV x) (s.getV y), s.skipIf_onlyPc _⟩,
    ⟨_, rfl, s.skipIf_ne_pcPlus (s.getV x) (s.getV y), s.skipIf_onlyPc _⟩, fun n hpos hlt ins => ⟨?_, ?_⟩⟩
  · exact not_encoded_of_illegalWord (by omega) (illegalWord_of_low_nibble (.inl rfl) x y hpos hlt) ins
  · exact not_encoded_of_illegalWord (by omega) (illegalWord_of_low_nibble (.inr rfl) x y hpos hlt) ins

/-! ## The call stack (R24, R100, R102) -/

/-- Settles O31: the two branches of RET. -/
theorem returnPops : Obligations.ReturnPops := by
  refine ⟨encoded_of_toNat rfl rfl, fun s hsp => ?_, fun s hsp => ?_⟩
  · exact ⟨_, execRet_of_nonempty hsp, rfl, rfl, rfl, fun _ => rfl, rfl, ⟨rfl, rfl⟩, fun _ => rfl, rfl, rfl,
      rfl, rfl, rfl, rfl, rfl⟩
  · exact ⟨_, execRet_of_empty (Nat.not_lt.2 hsp.le), rfl, rfl⟩

/-- The entry at the old depth is the one pushed; the others stay (R102). -/
theorem State.push_entry_toNat (s : State) (a : Word) (h : s.sp.val < Config.stackDepth) (k : Fin 16) :
    ((s.push a h).stack[k.val]).toNat = if k.val = s.sp.val then a.toNat else (s.stack[k.val]).toNat := by
  rw [State.push_stack, Vector.getElem_set, apply_ite BitVec.toNat]
  exact if_congr eq_comm rfl rfl

/-- Settles O33: the two branches of CALL. -/
theorem callPushes : Obligations.CallPushes := by
  intro nnn s
  refine ⟨encoded_of_toNat rfl (encodeA_toNat 0x2 nnn).symm, fun hsp => ?_, fun hsp => ?_⟩
  · exact ⟨_, execCall_of_room nnn hsp, wordOfAddr_toNat nnn, rfl, fun k => s.npc_toNat ▸ s.push_entry_toNat s.npc hsp k,
      fun _ => rfl, rfl, ⟨rfl, rfl⟩, fun _ => rfl, rfl, rfl, rfl, rfl, rfl, rfl, rfl⟩
  · have hword : encode (.call nnn) = BitVec.ofNat 16 (0x2000 + nnn.toNat) := eq_ofNat_of_toNat (encodeA_toNat 0x2 nnn)
    exact hword ▸ execCall_of_full nnn (Nat.not_lt.2 hsp.ge)

/-- RET straight after CALL pops the `npc` that CALL pushed: the depth is the old one, and the entry stays behind above it. -/
theorem execRet_of_called (s : State) (a : Word) (h : s.sp.val < Config.stackDepth) :
    execRet ((s.push s.npc h).setPc a) = .next { s with pc := s.npc, stack := s.stack.set s.sp.val s.npc h } := by
  have htop : ((s.push s.npc h).setPc a).top (Nat.succ_pos _) = s.npc := Vector.getElem_set_self h
  rw [execRet_of_nonempty (Nat.succ_pos s.sp.val), htop]
  rfl

/-- Settles O34: `execRet_of_called`; the entry written lies at the old `SP`, above those in use. -/
theorem callThenReturn : Obligations.CallThenReturn := by
  intro nnn s hsp
  have hbelow (k : Fin 16) (hk : k.val < s.sp.val) : (s.stack.set s.sp.val s.npc hsp)[k.val] = s.stack[k.val] :=
    Vector.getElem_set_ne hsp k.isLt (Nat.ne_of_gt hk)
  exact ⟨_, _, execCall_of_room nnn hsp, execRet_of_called s (wordOfAddr nnn) hsp, pcPlus_two_of_npc rfl, rfl, hbelow, rfl⟩

end Sys2Proof.Machine

/-! Register instructions (41_alu): what each ending writes and what it leaves as it was, the flags and results as numbers, and the words of the twelve instructions. -/

namespace Sys2Proof.Machine

/-! ## The words of family 8 (R76) -/

/-- An instruction of family 8 with the low nibble `n` has the word 8xyn. -/
theorem encoded_family8 {ins : Instr} {x y : Reg} {n : BitVec 4} (hw : ins.wellFormed = true)
    (h : encode ins = encodeXYN 0x8 x y n) : Encoded (0x8000 + n.toNat + x.val * 256 + y.val * 16) ins := by
  refine encoded_of_toNat hw ?_
  have hfam : (0x8 : BitVec 4).toNat = 8 := rfl
  rw [h, encodeXYN_toNat, hfam]
  omega

/-! ## What the endings write (R133) -/

@[simp] theorem State.getV_finish_same (s : State) (x : Reg) (b : Byte) : (s.finish x b).getV x = b :=
  (s.getV_finish x x b).trans (if_pos rfl)

/-- Where `x` is F the result, written last, stays (D10; log 13). -/
@[simp] theorem State.getV_finishFlagFirst_same (s : State) (x : Reg) (b f : Byte) :
    (s.finishFlagFirst x b f).getV x = b :=
  (s.getV_finishFlagFirst x x b f).trans (if_pos rfl)

theorem State.getV_finishFlagFirst_vf (s : State) {x : Reg} (b f : Byte) (hx : x ≠ Reg.vf) :
    (s.finishFlagFirst x b f).getV Reg.vf = f :=
  (s.getV_finishFlagFirst x Reg.vf b f).trans ((if_neg hx.symm).trans (if_pos rfl))

theorem State.getV_finishFlagLast_same (s : State) {x : Reg} (b f : Byte) (hx : x ≠ Reg.vf) :
    (s.finishFlagLast x b f).getV x = b :=
  (s.getV_finishFlagLast x x b f).trans ((if_neg hx).trans (if_pos rfl))

/-- Where `x` is F the flag, written last, stays (D10; log 13). -/
@[simp] theorem State.getV_finishFlagLast_vf (s : State) (x : Reg) (b f : Byte) :
    (s.finishFlagLast x b f).getV Reg.vf = f :=
  (s.getV_finishFlagLast x Reg.vf b f).trans (if_pos rfl)

/-! ## What the endings leave -/

/-- Registers and `pc` written, and nothing else. -/
theorem onlyRegsPc_of_eq {s t : State} (h : t = { s with v := t.v, pc := t.pc }) : OnlyRegsPc s t := by
  rw [h]
  exact ⟨rfl, ⟨rfl, rfl⟩, ⟨rfl, rfl⟩, fun _ => rfl, rfl, rfl, rfl, rfl, rfl, rfl, rfl⟩

theorem State.finish_frame (s : State) (x : Reg) (b : Byte) :
    PcPlus 2 s (s.finish x b) ∧ KeepsRegsBut (· = x) s (s.finish x b) ∧ OnlyRegsPc s (s.finish x b) :=
  ⟨pcPlus_two_of_npc rfl, s.finish_keepsRegsBut x b, onlyRegsPc_of_eq (s.finish_changes x b)⟩

theorem State.finishFlagFirst_frame (s : State) (x : Reg) (b f : Byte) :
    PcPlus 2 s (s.finishFlagFirst x b f) ∧ KeepsRegsBut (fun r => r = x ∨ r = Reg.vf) s (s.finishFlagFirst x b f) ∧
      OnlyRegsPc s (s.finishFlagFirst x b f) :=
  ⟨pcPlus_two_of_npc rfl, s.finishFlagFirst_keepsRegsBut x b f, onlyRegsPc_of_eq (s.finishFlagFirst_changes x b f)⟩

theorem State.finishFlagLast_frame (s : State) (x : Reg) (b f : Byte) :
    PcPlus 2 s (s.finishFlagLast x b f) ∧ KeepsRegsBut (fun r => r = x ∨ r = Reg.vf) s (s.finishFlagLast x b f) ∧
      OnlyRegsPc s (s.finishFlagLast x b f) :=
  ⟨pcPlus_two_of_npc rfl, s.finishFlagLast_keepsRegsBut x b f, onlyRegsPc_of_eq (s.finishFlagLast_changes x b f)⟩

/-! ## Flags (R21) -/

theorem flagIs_flagOf (c : Prop) [Decidable c] : FlagIs (flagOf (decide c)) c :=
  ⟨fun h => if_pos (decide_eq_true h), fun h => if_neg (by simpa using h)⟩

theorem flagIs_flagCarry (a b : Byte) : FlagIs (flagCarry a b) (255 < a.toNat + b.toNat) := flagIs_flagOf _

theorem flagIs_flagGreater (a b : Byte) : FlagIs (flagGreater a b) (b.toNat < a.toNat) := flagIs_flagOf _

/-- A bit of a byte as a flag is that binary digit. -/
theorem flagOf_getLsbD_toNat (a : Byte) (k : Nat) : (flagOf (a.getLsbD k)).toNat = a.toNat / 2 ^ k % 2 := by
  rw [flagOf_toNat, ← Nat.toNat_testBit]
  cases h : a.getLsbD k <;> simp [BitVec.testBit_toNat, h]

theorem flagBit0_toNat (a : Byte) : (flagBit0 a).toNat = a.toNat % 2 := by
  rw [flagBit0, flagOf_getLsbD_toNat, Nat.pow_zero, Nat.div_one]

/-- Bit 7 is the highest digit, so no reduction is left. -/
theorem flagBit7_toNat (a : Byte) : (flagBit7 a).toNat = a.toNat / 128 := by
  have ha := a.isLt
  rw [flagBit7, flagOf_getLsbD_toNat]
  omega

/-! ## Results as numbers -/

/-- The difference mod 256: 256 is added where it would be negative (R127, R129). -/
theorem toNat_difference (a b : Byte) :
    (a - b).toNat = if b.toNat ≤ a.toNat then a.toNat - b.toNat else a.toNat + 256 - b.toNat := by
  have ha := a.isLt
  have hb := b.isLt
  rw [BitVec.toNat_sub]
  split <;> omega

theorem toNat_shiftRight_one (a : Byte) : (a >>> 1).toNat = a.toNat / 2 := by
  rw [BitVec.toNat_ushiftRight, Nat.shiftRight_eq_div_pow, Nat.pow_one]

theorem toNat_shiftLeft_one (a : Byte) : (a <<< 1).toNat = a.toNat * 2 % 256 := by
  rw [BitVec.toNat_shiftLeft, Nat.shiftLeft_eq, Nat.pow_one]

/-! ## The instructions without a flag (R120 to R125, R131) -/

/-- Settles O38: `finish` with the immediate and with the sum. -/
theorem immediateLoadAndAdd : Obligations.ImmediateLoadAndAdd := fun x kk s =>
  ⟨encoded_of_toNat rfl (encodeXK_toNat 0x6 x kk).symm, encoded_of_toNat rfl (encodeXK_toNat 0x7 x kk).symm,
    ⟨_, rfl, s.getV_finish_same x kk, s.finish_frame x kk⟩,
    ⟨_, rfl, by rw [State.getV_finish_same, BitVec.toNat_add], s.finish_frame x _⟩⟩

/-- Settles O39: `finish` with `Vy`; where `y` is `x` the value written is the one that was there. -/
theorem copyRegister : Obligations.CopyRegister := by
  intro x y s
  refine ⟨encoded_family8 (n := 0) rfl rfl, _, rfl, s.getV_finish_same x _, ?_, s.finish_frame x _⟩
  rw [State.getV_finish, ite_self]

/-- Settles O40: `finish` with the bitwise operations, read bit by bit. -/
theorem logicBitwise : Obligations.LogicBitwise := fun x y s =>
  ⟨encoded_family8 (n := 1) rfl rfl, encoded_family8 (n := 2) rfl rfl, encoded_family8 (n := 3) rfl rfl,
    ⟨_, rfl, fun _ _ => by rw [State.getV_finish_same, BitVec.getLsbD_or], s.finish_frame x _⟩,
    ⟨_, rfl, fun _ _ => by rw [State.getV_finish_same, BitVec.getLsbD_and], s.finish_frame x _⟩,
    ⟨_, rfl, fun _ _ => by rw [State.getV_finish_same, BitVec.getLsbD_xor], s.finish_frame x _⟩⟩

/-- Settles O45: `finish` with the random byte masked, read bit by bit. -/
theorem randomMasked : Obligations.RandomMasked := fun x kk s =>
  ⟨encoded_of_toNat rfl (encodeXK_toNat 0xC x kk).symm,
    _, rfl, fun _ _ => by rw [State.getV_finish_same, BitVec.getLsbD_and], s.finish_frame x _⟩

/-! ## The flag first, the result second (R126, R127, R129) -/

/-- Settles O41: `finishFlagFirst` with the sum and the carry. -/
theorem addCarries : Obligations.AddCarries := fun x y s =>
  ⟨encoded_family8 (n := 4) rfl rfl, _, rfl, by rw [State.getV_finishFlagFirst_same, BitVec.toNat_add],
    fun hx => s.getV_finishFlagFirst_vf _ _ hx ▸ flagIs_flagCarry (s.getV x) (s.getV y), s.finishFlagFirst_frame x _ _⟩

/-- Settles O42: `finishFlagFirst` with the difference and the comparison, the operands in the two orders. -/
theorem subtractCompares : Obligations.SubtractCompares := fun x y s =>
  ⟨encoded_family8 (n := 5) rfl rfl, encoded_family8 (n := 7) rfl rfl,
    ⟨_, rfl, by rw [State.getV_finishFlagFirst_same, toNat_difference],
      fun hx => s.getV_finishFlagFirst_vf _ _ hx ▸ flagIs_flagGreater (s.getV x) (s.getV y), s.finishFlagFirst_frame x _ _⟩,
    ⟨_, rfl, by rw [State.getV_finishFlagFirst_same, toNat_difference],
      fun hx => s.getV_finishFlagFirst_vf _ _ hx ▸ flagIs_flagGreater (s.getV y) (s.getV x), s.finishFlagFirst_frame x _ _⟩⟩

/-! ## The result first, the flag second (R128, R130) -/

/-- Settles O43: `finishFlagLast` with half the source and its lowest bit. -/
theorem shiftRightByOne : Obligations.ShiftRightByOne := by
  rintro x y s _ rfl
  refine ⟨encoded_family8 (n := 6) rfl rfl, _, rfl, fun hx => ?_, ?_, s.finishFlagLast_frame x _ _⟩
  · rw [State.getV_finishFlagLast_same _ _ _ hx, toNat_shiftRight_one, State.shiftSource]
  · rw [State.getV_finishFlagLast_vf, flagBit0_toNat, State.shiftSource]

/-- Settles O44: `finishFlagLast` with twice the source and its highest bit. -/
theorem shiftLeftByOne : Obligations.ShiftLeftByOne := by
  rintro x y s _ rfl
  refine ⟨encoded_family8 (n := 0xE) rfl rfl, _, rfl, fun hx => ?_, ?_, s.finishFlagLast_frame x _ _⟩
  · rw [State.getV_finishFlagLast_same _ _ _ hx, toNat_shiftLeft_one, State.shiftSource]
  · rw [State.getV_finishFlagLast_vf, flagBit7_toNat, State.shiftSource]

end Sys2Proof.Machine

/-! Address register and memory (42_index_and_memory): what the instructions on `I` write, what the two stores leave as it was, the digits and blocks they store, the block load, and the words of the six instructions. -/

namespace Sys2Proof.Machine

/-! ## The words of family F (R76) -/

/-- An instruction of family F with the low byte `kk` has the word Fxkk. -/
theorem encoded_familyF {ins : Instr} {x : Reg} {kk : Byte} (hw : ins.wellFormed = true)
    (h : encode ins = encodeXK 0xF x kk) : Encoded (0xF000 + kk.toNat + x.val * 256) ins := by
  refine encoded_of_toNat hw ?_
  have hfam : (0xF : BitVec 4).toNat = 15 := rfl
  rw [h, encodeXK_toNat, hfam]
  omega

/-! ## Writing `I` alone (R140 to R142) -/

theorem State.setI_advance_onlyIPc (s : State) (a : Word) : OnlyIPc s (s.setI a).advance :=
  ⟨pcPlus_two_of_npc rfl, fun _ => rfl, ⟨rfl, rfl⟩, ⟨rfl, rfl⟩, fun _ => rfl, rfl, rfl, rfl, rfl, rfl, rfl, rfl⟩

/-- Settles O46: `setI` with `nnn`, and with the 16-bit sum. -/
theorem loadAndAddAddress : Obligations.LoadAndAddAddress := fun nnn x s =>
  ⟨encoded_of_toNat rfl (encodeA_toNat 0xA nnn).symm, encoded_familyF (kk := 0x1E) rfl rfl,
    ⟨_, rfl, wordOfAddr_toNat nnn, s.setI_advance_onlyIPc _⟩,
    ⟨_, rfl, by simp, s.setI_advance_onlyIPc _⟩⟩

/-- Settles O47: `setI` with `Vx * 5`; where the font lies at address 0, that is where glyph `Vx` starts. -/
theorem execLdF_glyphAddress : Obligations.GlyphAddress := by
  intro x s
  have hi : (glyphAddress (s.getV x)).toNat = (s.getV x).toNat * 5 := glyphAddress_toNat _
  refine ⟨encoded_familyF (kk := 0x29) rfl rfl, _, rfl, hi, s.setI_advance_onlyIPc _, fun d hd r hr hx hfont => ?_⟩
  have hstart : (s.setI (glyphAddress (s.getV x))).advance.i.toNat = d * 5 := hi.trans (hx ▸ rfl)
  rw [hstart]
  exact hfont (d * 5 + r) (by omega)

/-! ## The two stores (R143, R144) -/

/-- Memory, `I` and `pc` written, and nothing else. -/
theorem storeFrame_of_eq {s t : State} (h : t = { s with mem := t.mem, i := t.i, pc := s.npc }) :
    PcPlus 2 s t ∧ KeepsRegs s t ∧ KeepsStack s t ∧ KeepsTimers s t ∧ t.display = s.display ∧ t.fault = s.fault ∧
      KeepsModel s t := by
  rw [h]
  exact ⟨pcPlus_two_of_npc rfl, fun _ => rfl, ⟨rfl, rfl⟩, ⟨rfl, rfl⟩, rfl, rfl, rfl, rfl, rfl, rfl, rfl⟩

theorem State.memWrite_keepsMemOutside (s : State) (addr : Nat) (bs : List Byte) :
    KeepsMemOutside addr bs.length s (s.memWrite addr bs) :=
  fun a => s.memRead_memWrite_out addr a bs

/-- Each digit of a byte fits in a byte (R143). -/
theorem map_toNat_bcdDigits (a : Byte) :
    (bcdDigits a).map BitVec.toNat = [a.toNat / 100, a.toNat / 10 % 10, a.toNat % 10] := by
  have ha := a.isLt
  simp only [bcdDigits, List.map_cons, List.map_nil, BitVec.toNat_ofNat, List.cons.injEq, and_true]
  omega

/-- Settles O48: the three digits stored as one block at `I`. -/
theorem storeDecimalDigits : Obligations.StoreDecimalDigits := by
  intro x s
  obtain ⟨bs, hbs, hlen, hexec⟩ := execLdB_eq x s
  have hdigits := map_toNat_bcdDigits (s.getV x)
  rw [← hbs] at hdigits
  refine ⟨encoded_familyF (kk := 0x33) rfl rfl, _, hexec, fun hm => ?_,
    hlen ▸ s.memWrite_keepsMemOutside s.i.toNat bs, rfl, storeFrame_of_eq rfl⟩
  have hread (k : Nat) (hk : k < 3) : ((s.memWrite s.i.toNat bs).memRead (s.i.toNat + k)).toNat =
      [(s.getV x).toNat / 100, (s.getV x).toNat / 10 % 10, (s.getV x).toNat % 10][k]'hk := by
    have hfits : bs.length ≤ Config.memSize := hlen ▸ by decide
    rw [State.memRead_memWrite_in _ k bs hm hfits (hlen ▸ hk)]
    simp only [← hdigits, List.getElem_map]
  exact ⟨hread 0 (by decide), hread 1 (by decide), hread 2 (by decide)⟩

theorem State.blockEndI_toNat (s : State) (x : Reg) :
    (s.blockEndI x).toNat = if s.quirks.memInc then (s.i.toNat + x.val + 1) % 65536 else s.i.toNat := by
  rw [State.blockEndI, apply_ite BitVec.toNat, BitVec.toNat_ofNat]

/-- Settles O49: `V0` to `Vx` stored as one block at `I`. -/
theorem storeRegisterBlock : Obligations.StoreRegisterBlock := fun x s =>
  ⟨encoded_familyF (kk := 0x55) rfl rfl, _, execStRegs_eq x s, fun hm _ hr => State.afterStRegs_memRead hm hr,
    s.length_regBlock x ▸ s.memWrite_keepsMemOutside s.i.toNat (s.regBlock x), s.blockEndI_toNat x,
    storeFrame_of_eq rfl⟩

/-! ## The block load (R145) -/

/-- Registers and `I` written and `pc` moved on, and nothing else. The register file is a variable here: in place of a loaded block Lean would evaluate it to compare the states. -/
theorem State.loadFrame (s : State) (w : Vector Byte 16) (a : Word) :
    let t := ((s.setRegs w).setI a).advance
    PcPlus 2 s t ∧ KeepsStack s t ∧ KeepsTimers s t ∧ KeepsMem s t ∧ t.display = s.display ∧ t.fault = s.fault ∧
      KeepsModel s t :=
  ⟨pcPlus_two_of_npc rfl, ⟨rfl, rfl⟩, ⟨rfl, rfl⟩, fun _ => rfl, rfl, rfl, rfl, rfl, rfl, rfl, rfl⟩

/-- The state Fx65 leaves: the block loaded from `I`, `I` moved by the quirk, `pc` moved on (R145). -/
def State.afterLdRegs (s : State) (x : Reg) : State :=
  ((s.setRegs (s.loadRegBlock x s.i.toNat)).setI (s.blockEndI x)).advance

theorem execLdRegs_eq (x : Reg) (s : State) : execLdRegs x s = .next (s.afterLdRegs x) := rfl

theorem State.afterLdRegs_getV (s : State) (x r : Reg) :
    (s.afterLdRegs x).getV r = if r ≤ x then s.memRead (s.i.toNat + r.val) else s.getV r :=
  s.getElem_loadRegBlock x r s.i.toNat

theorem State.afterLdRegs_getV_in (s : State) {x r : Reg} (hr : r ≤ x) :
    (s.afterLdRegs x).getV r = s.memRead (s.i.toNat + r.val) :=
  (s.afterLdRegs_getV x r).trans (if_pos hr)

theorem State.afterLdRegs_keepsRegsBut (s : State) (x : Reg) : KeepsRegsBut (· ≤ x) s (s.afterLdRegs x) :=
  fun r hr => (s.afterLdRegs_getV x r).trans (if_neg hr)

/-- Settles O50: the registers read from the block, and the frame of a load. -/
theorem loadRegisterBlock : Obligations.LoadRegisterBlock := fun x s =>
  ⟨encoded_familyF (kk := 0x65) rfl rfl, s.afterLdRegs x, execLdRegs_eq x s, fun _ hr => s.afterLdRegs_getV_in hr,
    s.afterLdRegs_keepsRegsBut x, s.blockEndI_toNat x, s.loadFrame _ _⟩

/-- Settles O51: the load reads, from where the block lies, the bytes that the store left there. -/
theorem storeThenLoadRestores : Obligations.StoreThenLoadRestores := by
  intro x s w hm
  refine ⟨_, _, execStRegs_eq x s, execLdRegs_eq x _, fun r hr => ?_, fun r hr => ?_⟩
  · exact (State.afterLdRegs_getV_in _ hr).trans (State.afterStRegs_memRead hm hr)
  · exact State.afterLdRegs_keepsRegsBut _ x r (Fin.not_le.2 hr)

end Sys2Proof.Machine

/-! Display (43_display): the framebuffer's operations, CLS, DRW as an exclusive or with the wrapped sprite, the same sprite drawn twice, and the host's reads. -/

namespace Sys2Proof.Machine

/-! ## The framebuffer's operations (R160 to R162) -/

/-- Settles O53: a pixel under reduced coordinates, after `clear` and after a flip. -/
theorem framebufferContract : Obligations.FramebufferContract := fun d px py =>
  ⟨(d.fb.pixel_mod px py).symm, ⟨d.dirty_clear, d.pixel_clear⟩, rfl, rfl, d.fb.pixel_flip px py⟩

/-! ## CLS (R164) -/

/-- Settles O54: `clear` in a state, with `pc` moved on. -/
theorem clearScreen : Obligations.ClearScreen :=
  ⟨encoded_of_toNat rfl rfl, fun s => ⟨(s.setDisplay s.display.clear).advance, rfl, s.display.pixel_clear, rfl,
    pcPlus_two_of_npc rfl, fun _ => rfl, rfl, ⟨rfl, rfl⟩, ⟨rfl, rfl⟩, fun _ => rfl, rfl, rfl, rfl, rfl, rfl, rfl⟩⟩

/-! ## The sprite of a state (R165) -/

/-- The rows read at `I` land on a pixel exactly where the sprite has a set bit for it, once the pixel's coordinates are reduced. -/
theorem rowsHit_loadBlock_iff (s : State) (x y : Reg) (n cx cy : Nat) :
    rowsHit (s.mem.loadBlock s.i.toNat n) (s.getV x).toNat (s.getV y).toNat cx cy ↔
      SpriteOn s x y n (cx % Config.width) (cy % Config.height) := by
  simp only [rowsHit, rowHits, SpriteOn, Memory.length_loadBlock, Memory.getElem_loadBlock, exists_prop, State.memRead]

/-- The sprite lies within the grid: its coordinates are reduced ones (R160). -/
theorem SpriteOn.mod_eq {s : State} {x y : Reg} {n cx cy : Nat} (h : SpriteOn s x y n cx cy) :
    cx % Config.width = cx ∧ cy % Config.height = cy := by
  obtain ⟨r, -, c, -, -, rfl, rfl⟩ := h
  exact ⟨Nat.mod_mod _ _, Nat.mod_mod _ _⟩

/-- The sprite depends on memory, `I` and the two coordinate registers only. -/
theorem spriteOn_congr {s t : State} {x y : Reg} (hmem : KeepsMem s t) (hi : t.i = s.i) (hx : t.getV x = s.getV x)
    (hy : t.getV y = s.getV y) (n cx cy : Nat) : SpriteOn t x y n cx cy ↔ SpriteOn s x y n cx cy := by
  unfold SpriteOn
  rw [hi, hx, hy]
  simp only [hmem _]

section
variable (s : State) (x y : Reg) {n : Nat}

/-- Drawing turns exactly the pixels of the sprite. -/
theorem State.drawSprite_pixel (hn : n ≤ Config.height) (cx cy : Nat) :
    (s.drawSprite x y n).1.fb.pixel cx cy = true ↔
      (s.display.fb.pixel cx cy = true ↔ ¬ SpriteOn s x y n (cx % Config.width) (cy % Config.height)) := by
  rw [← rowsHit_loadBlock_iff]
  exact (Display.drawRows_spec _ (s.display, false) _ _ (by rwa [Memory.length_loadBlock])).1 cx cy

/-- A collision is a pixel of the sprite that was on. -/
theorem State.drawSprite_hit (hn : n ≤ Config.height) :
    (s.drawSprite x y n).2 = true ↔ ∃ cx cy, SpriteOn s x y n cx cy ∧ s.display.fb.pixel cx cy = true := by
  have hspec := (Display.drawRows_spec (s.mem.loadBlock s.i.toNat n) (s.display, false) (s.getV x).toNat (s.getV y).toNat
    (by rwa [Memory.length_loadBlock])).2
  simp only [rowsHit_loadBlock_iff, Bool.false_eq_true, false_or] at hspec
  refine hspec.trans ⟨?_, ?_⟩
  · rintro ⟨cx, cy, hon, hpix⟩
    exact ⟨_, _, hon, by rwa [FrameBuffer.pixel_mod]⟩
  · rintro ⟨cx, cy, hon, hpix⟩
    obtain ⟨hx, hy⟩ := hon.mod_eq
    exact ⟨cx, cy, by rwa [hx, hy], hpix⟩

end

/-! ## DRW (R165) -/

/-- The state DRW leaves: the sprite drawn, `DIRTY` set, the collision in `VF`, `pc` moved on. -/
def State.afterDrw (s : State) (x y : Reg) (n : Nat) : State :=
  ((s.setDisplay { (s.drawSprite x y n).1 with dirty := true }).setV Reg.vf (flagCollision (s.drawSprite x y n).2)).advance

theorem exec_drw (x y : Reg) (n : Nat) (s : State) : exec (.drw x y n) s = .next (s.afterDrw x y n) := rfl

theorem rowCount_le_height {x y : Reg} {n : Nat} (h : (Instr.drw x y n).wellFormed = true) : n ≤ Config.height :=
  (of_decide_eq_true h : n ≤ 15).trans (by decide)

/-- A flag that is set exactly where the condition holds. -/
theorem flagIs_flagOf_of_iff {b : Bool} {c : Prop} (h : b = true ↔ c) : FlagIs (flagOf b) c :=
  ⟨fun hc => if_pos (h.2 hc), fun hc => if_neg (mt h.1 hc)⟩

/-- The display and `VF` written and `pc` moved on, and nothing else. The display is a variable here: in place of a drawn one Lean would evaluate it to compare the states. -/
theorem State.drawFrame (s : State) (d : Display) (f : Byte) :
    let t := ((s.setDisplay d).setV Reg.vf f).advance
    PcPlus 2 s t ∧ KeepsRegsBut (· = Reg.vf) s t ∧ t.i = s.i ∧ KeepsStack s t ∧ KeepsTimers s t ∧ KeepsMem s t ∧
      t.fault = s.fault ∧ KeepsModel s t :=
  ⟨pcPlus_two_of_npc rfl, fun _ hr => State.getV_setV_ne (x := Reg.vf) _ f hr, rfl, ⟨rfl, rfl⟩, ⟨rfl, rfl⟩,
    fun _ => rfl, rfl, rfl, rfl, rfl, rfl, rfl⟩

section
variable (s : State) (x y : Reg) {n : Nat}

theorem State.afterDrw_pixel (hn : n ≤ Config.height) {cx cy : Nat} (hx : cx < Config.width) (hy : cy < Config.height) :
    (s.afterDrw x y n).display.fb.pixel cx cy = true ↔
      (s.display.fb.pixel cx cy = true ↔ ¬ SpriteOn s x y n cx cy) := by
  have h := s.drawSprite_pixel x y hn cx cy
  rwa [Nat.mod_eq_of_lt hx, Nat.mod_eq_of_lt hy] at h

theorem State.afterDrw_flag (hn : n ≤ Config.height) :
    FlagIs ((s.afterDrw x y n).getV Reg.vf) (∃ cx cy, SpriteOn s x y n cx cy ∧ s.display.fb.pixel cx cy = true) := by
  have hvf : (s.afterDrw x y n).getV Reg.vf = flagOf (s.drawSprite x y n).2 := State.getV_setV_same _ _ _
  exact hvf ▸ flagIs_flagOf_of_iff (s.drawSprite_hit x y hn)

/-- Drawing does not move the sprite, where neither coordinate is in `VF`. -/
theorem State.spriteOn_afterDrw (hx : x ≠ Reg.vf) (hy : y ≠ Reg.vf) (cx cy : Nat) :
    SpriteOn (s.afterDrw x y n) x y n cx cy ↔ SpriteOn s x y n cx cy := by
  obtain ⟨-, hregs, hi, -, -, hmem, -⟩ := s.drawFrame { (s.drawSprite x y n).1 with dirty := true }
    (flagCollision (s.drawSprite x y n).2)
  exact spriteOn_congr hmem hi (hregs x hx) (hregs y hy) n cx cy

/-- The exclusive or with the same sprite twice is the old grid (R165 (h)). -/
theorem State.afterDrw_twice_fb (hn : n ≤ Config.height) (hx : x ≠ Reg.vf) (hy : y ≠ Reg.vf) :
    ((s.afterDrw x y n).afterDrw x y n).display.fb = s.display.fb := by
  refine FrameBuffer.ext_pixel fun cx hcx cy hcy => Bool.eq_iff_iff.2 ?_
  rw [State.afterDrw_pixel _ x y hn hcx hcy, State.afterDrw_pixel s x y hn hcx hcy, s.spriteOn_afterDrw x y hx hy]
  tauto

end

/-- Settles O55: the pixels by `afterDrw_pixel`, the collision by `afterDrw_flag`, the rest by the frame of a draw. -/
theorem drawXorsSprite : Obligations.DrawXorsSprite := by
  intro x y n s hw
  have hn := rowCount_le_height hw
  have hword : 0xD000 + x.val * 256 + y.val * 16 + n = (encode (.drw x y n)).toNat := by
    rw [encode, encodeXYN_toNat, toNat_rowCount (of_decide_eq_true hw)]
    rfl
  exact ⟨encoded_of_toNat hw hword, _, exec_drw x y n s, fun _ hx _ hy => s.afterDrw_pixel x y hn hx hy,
    s.afterDrw_flag x y hn, rfl, s.drawFrame _ _⟩

/-- Settles O56: the second draw meets the same sprite, so it turns the same pixels back. -/
theorem drawTwiceRestores : Obligations.DrawTwiceRestores := by
  intro x y n s hw hx hy
  have hn := rowCount_le_height hw
  have hflag := (s.afterDrw x y n).afterDrw_flag x y hn
  simp only [s.spriteOn_afterDrw x y hx hy] at hflag
  exact ⟨_, _, exec_drw x y n s, exec_drw x y n _, s.afterDrw_twice_fb x y hn hx hy, hflag⟩

/-! ## The host's operations (R63, R163, R166, R213) -/

/-- Settles O26: `takeDirty` on the display, and its answer given to the host. -/
theorem takeDirtyAnswersAndClears : Obligations.TakeDirtyAnswersAndClears := fun s h =>
  ⟨s.popEvent.hostTakeDirty, by rw [step, h], rfl, rfl, rfl, rfl⟩

/-- Byte `k` of a dump is the byte at address `k` (R63). -/
theorem State.getElem_dump (s : State) (m k : Nat) (hk : k < (s.mem.loadBlock 0 m).length) :
    (s.mem.loadBlock 0 m)[k] = s.memRead k := by
  rw [Memory.getElem_loadBlock, Nat.zero_add, State.memRead]

/-- Settles O27: each read appends its answer; the dump is the block of the whole memory. -/
theorem hostReadsChangeNothing : Obligations.HostReadsChangeNothing := fun s =>
  ⟨fun h => by rw [step, h]; rfl, fun h => by rw [step, h]; rfl, fun h =>
    ⟨s.mem.loadBlock 0 Config.memSize, by rw [step, h]; rfl, s.mem.length_loadBlock 0 Config.memSize,
      s.getElem_dump Config.memSize⟩⟩

end Sys2Proof.Machine

/-! Keys and timers (44_keys_and_timers): the two skips on a key, a value that names no key, the wait for a key-down with its stall, the timer reads and writes, and the words of the six instructions. -/

namespace Sys2Proof.Machine

/-! ## The words of format XK (R72, R76) -/

/-- An instruction of family `f` with the operand `x` and the low byte `kk` has the word fxkk. -/
theorem encoded_of_encodeXK {ins : Instr} {f : BitVec 4} {x : Reg} {kk : Byte} (hw : ins.wellFormed = true)
    (h : encode ins = encodeXK f x kk) : Encoded (f.toNat * 4096 + kk.toNat + x.val * 256) ins := by
  refine encoded_of_toNat hw ?_
  rw [h, encodeXK_toNat, Nat.add_right_comm]

/-! ## The two skips on a key (R180 to R182) -/

/-- Settles O57: where the two skips leave `pc` is the rule of O18, and `skipIf` writes nothing else. -/
theorem skipsOnKey : Obligations.SkipsOnKey := by
  intro x s
  obtain ⟨hskpHeld, hskpFree⟩ : PcRule s (s.skipIf (keyHeld s.input (s.getV x))) (.skp x) :=
    pcAfterInstruction _ _ _ rfl
  obtain ⟨hsknpHeld, hsknpFree⟩ : PcRule s (s.skipIf !keyHeld s.input (s.getV x)) (.sknp x) :=
    pcAfterInstruction _ _ _ rfl
  refine ⟨encoded_of_encodeXK (f := 0xE) (kk := 0x9E) rfl rfl, encoded_of_encodeXK (f := 0xE) (kk := 0xA1) rfl rfl,
    fun held => ⟨?_, ?_⟩, fun free => ⟨?_, ?_⟩⟩
  · exact ⟨_, rfl, hskpHeld held, s.skipIf_onlyPc _⟩
  · exact ⟨_, rfl, hsknpHeld held, s.skipIf_onlyPc _⟩
  · exact ⟨_, rfl, hskpFree free, s.skipIf_onlyPc _⟩
  · exact ⟨_, rfl, hsknpFree free, s.skipIf_onlyPc _⟩

/-- A byte above 0xF is the value of no key (D13; log 15). -/
theorem no_key_of_above_fifteen {a : Byte} (h : 15 < a.toNat) (keys : List Key) : ¬ ∃ k ∈ keys, k.val = a.toNat := by
  rintro ⟨k, -, hk⟩
  have hlt : k.val < 16 := k.isLt
  omega

/-- Settles O58: no key has that value, so the second clause of O57 applies. -/
theorem keyAboveFifteenNeverHeld : Obligations.KeyAboveFifteenNeverHeld := by
  intro x s hx
  obtain ⟨-, -, -, hfree⟩ := skipsOnKey x s
  exact hfree (no_key_of_above_fifteen hx _)

/-! ## The wait for a key-down (R183) -/

/-- The stall: the same state, `pc` included (D14; log 33). -/
theorem execLdVxK_of_no_keydown (x : Reg) {s : State} (h : s.input.keydown = none) : execLdVxK x s = .next s := by
  rw [execLdVxK, h]

theorem execLdVxK_of_keydown (x : Reg) {s : State} {k : Key} (h : s.input.keydown = some k) :
    execLdVxK x s = .next (s.finish x (byteOfKey k)) := by
  rw [execLdVxK, h]
  rfl

/-- Settles O59: the two branches of Fx0A; with a key-down it is `finish` with the key. -/
theorem waitForKey : Obligations.WaitForKey := fun x s =>
  ⟨encoded_familyF (kk := 0x0A) rfl rfl, execLdVxK_of_no_keydown x, fun k hk =>
    ⟨_, execLdVxK_of_keydown x hk, by rw [State.getV_finish_same, byteOfKey_toNat], s.finish_frame x _⟩⟩

/-! ## The timers (R184 to R186) -/

/-- A timer written and `pc` moved on, and nothing else: what was given to the host stays, so no tone. -/
theorem timerFrame_of_eq {s t : State} (h : t = { s with dt := t.dt, st := t.st, pc := s.npc }) :
    PcPlus 2 s t ∧ KeepsRegs s t ∧ t.i = s.i ∧ KeepsStack s t ∧ KeepsMem s t ∧ t.display = s.display ∧
      t.fault = s.fault ∧ KeepsModel s t := by
  rw [h]
  exact ⟨pcPlus_two_of_npc rfl, fun _ => rfl, rfl, ⟨rfl, rfl⟩, fun _ => rfl, rfl, rfl, rfl, rfl, rfl, rfl, rfl⟩

/-- Settles O60: `finish` with `DT`; then `setDt` and `setSt` with `Vx`. -/
theorem timerAccess : Obligations.TimerAccess := fun x s =>
  ⟨encoded_familyF (kk := 0x07) rfl rfl, encoded_familyF (kk := 0x15) rfl rfl, encoded_familyF (kk := 0x18) rfl rfl,
    ⟨_, rfl, s.getV_finish_same x s.dt, s.finish_frame x s.dt⟩,
    ⟨_, rfl, rfl, rfl, timerFrame_of_eq rfl⟩,
    ⟨_, rfl, rfl, rfl, timerFrame_of_eq rfl⟩⟩

end Sys2Proof.Machine

/-! Exceptions and ticks (60_exceptions): the three conditions under which the engine faults, the one operation it then is, what a halted block still does, the invariant of every event, and the timers with their tones. -/

namespace Sys2Proof.Machine

/-! ## The three conditions of a fault (R200 to R203) -/

theorem State.halted_of_safe {s : State} (h : s.Safe) : s.halted = false :=
  decide_eq_false (not_not_intro h)

/-- A running engine executes the instruction of which the word at `pc` is the opcode. -/
theorem engineCore_of_encode {s : State} {ins : Instr} (hrun : s.Safe) (hw : ins.wellFormed = true)
    (hword : encode ins = s.fetchWord) : engineCore s = exec ins s := by
  simp only [engineCore, State.halted_of_safe hrun, ← hword, decodeWord_encode hw, Bool.false_eq_true, if_false]

theorem engineCore_of_halted {s : State} (h : s.fault.cause ≠ .none) : engineCore s = .next s :=
  if_pos (decide_eq_true h)

theorem engineCore_of_illegalWord {s : State} (hrun : s.Safe) (h : IllegalWord s.fetchWord.toNat) :
    engineCore s = .next (s.raise .unknownOpcode s.fetchWord) := by
  simp only [engineCore, State.halted_of_safe hrun, (illegalWordsExactly s.fetchWord).2 h, Bool.false_eq_true, if_false]

/-- Under each of the three conditions the engine takes the fault with the word at `pc`, and does nothing else (R206). -/
theorem engineCore_of_faultsWith {s : State} {c : FaultCause} (h : FaultsWith s c) :
    engineCore s = .next (s.raise c s.fetchWord) := by
  obtain ⟨hrun, ⟨rfl, hill⟩ | ⟨rfl, hfam, hfull⟩ | ⟨rfl, hret, hempty⟩⟩ := h
  · exact engineCore_of_illegalWord hrun hill
  · obtain ⟨nnn, hword⟩ : ∃ nnn, encode (.call nnn) = s.fetchWord := ⟨_, encodeA_of_fam ((opFam_toNat _).trans hfam)⟩
    rw [engineCore_of_encode hrun rfl hword, ← hword]
    exact execCall_of_full nnn (Nat.not_lt.2 hfull.ge)
  · have hword : encode .ret = s.fetchWord := (eq_ofNat_of_toNat hret).symm
    rw [engineCore_of_encode hrun rfl hword, ← hword]
    exact execRet_of_empty (Nat.not_lt.2 hempty.le)

/-- An instruction that changes `FAULT` is a RET or CALL in the state of its condition. -/
theorem faultsWith_of_exec_fault_ne {s u : State} {ins : Instr} (hrun : s.Safe)
    (hdec : decodeWord s.fetchWord = .ok ins) (hexec : exec ins s = .next u) (hne : u.fault ≠ s.fault) :
    ∃ c, FaultsWith s c := by
  obtain ⟨-, hword⟩ := encodeOfDecode _ _ hdec
  rcases (exec_changed hexec).fault_owner hne with ⟨rfl, hempty⟩ | ⟨⟨nnn, rfl⟩, hfull⟩
  · exact ⟨.stackUnderflow, hrun, .inr (.inr ⟨rfl, congrArg BitVec.toNat hword.symm, hempty⟩)⟩
  · have hfam : s.fetchWord.toNat / 4096 = 2 := by
      rw [← opFam_toNat, ← hword, encode, opFam_encodeA]
      rfl
    exact ⟨.stackOverflow, hrun, .inr (.inl ⟨rfl, hfam, hfull⟩)⟩

/-- Where no condition holds the engine leaves `FAULT` as it was. -/
theorem engineCore_fault_of_not_faultsWith {s u : State} (hnone : ∀ c, ¬ FaultsWith s c)
    (h : engineCore s = .next u) : u.fault = s.fault := by
  rcases engineCore_cases h with ⟨-, rfl⟩ | ⟨hrun, ins, hdec, hexec⟩ | ⟨hrun, ⟨e, herr⟩, -⟩
  · rfl
  · by_contra hne
    obtain ⟨c, hc⟩ := faultsWith_of_exec_fault_ne hrun hdec hexec hne
    exact hnone c hc
  · have hill : IllegalWord s.fetchWord.toNat := by
      have hd := decodeWord_decodesTo s.fetchWord
      rw [herr] at hd
      cases hd with
      | illegal hill => exact hill
    exact absurd ⟨hrun, .inl ⟨rfl, hill⟩⟩ (hnone .unknownOpcode)

/-- What a `Step` does to `FAULT`: nothing of the block while halted, one of the three faults and nothing else, or an instruction that ends without one. -/
theorem engineCore_fault_cases {s u : State} (h : engineCore s = .next u) :
    (s.fault.cause ≠ .none ∧ u = s) ∨ (∃ c, FaultsWith s c ∧ u = s.raise c s.fetchWord) ∨ (s.Safe ∧ u.Safe) := by
  by_cases hrun : s.Safe
  · by_cases hf : ∃ c, FaultsWith s c
    · obtain ⟨c, hc⟩ := hf
      exact .inr (.inl ⟨c, hc, Host.Outcome.next.inj (h.symm.trans (engineCore_of_faultsWith hc))⟩)
    · have hkeep := engineCore_fault_of_not_faultsWith (not_exists.1 hf) h
      exact .inr (.inr ⟨hrun, (congrArg FaultLatch.cause hkeep).trans hrun⟩)
  · exact .inl ⟨hrun, Host.Outcome.next.inj (h.symm.trans (engineCore_of_halted hrun))⟩

/-- A `Step` event is the engine with the bookkeeping around it. -/
theorem step_of_engineCore {s u : State} {inp : StepInput} (hev : s.nextEvent = .step inp)
    (h : engineCore s = .next u) : step s = .next u.stepDone := by
  rw [step, hev]
  exact congrArg (onNext State.stepDone) h

/-! ## The invariant of every event (R63, R206; logs 10, 18) -/

theorem Changed.memOk {ins : Instr} {s t : State} (h : Changed s t ins) (hm : s.MemOk) : t.MemOk := by
  cases h with
  | ldB bs _ e => exact e ▸ Memory.wf_storeBlock s.i.toNat bs hm
  | stRegs e => exact e ▸ Memory.wf_storeBlock s.i.toNat (s.regBlock _) hm
  | _ =>
    have e := ‹t = _›
    have hmem : t.mem = s.mem := by simpa using congrArg State.mem e
    exact (congrArg Memory.wf hmem).trans hm

theorem engineCore_memOk {s u : State} (hm : s.MemOk) (h : engineCore s = .next u) : u.MemOk := by
  rcases engineCore_cases h with ⟨-, rfl⟩ | ⟨-, ins, -, hexec⟩ | ⟨-, -, rfl⟩
  · exact hm
  · exact (exec_changed hexec).memOk hm
  · exact hm

theorem State.latchOk_of_safe {s : State} (h : s.Safe) : s.LatchOk := by
  rw [State.LatchOk, h]
  trivial

/-- The fault that is taken is true of the state: `pc`, memory and `SP` stay, so the word and the depth are those of the condition. -/
theorem FaultsWith.latchOk_raise {s : State} {c : FaultCause} (h : FaultsWith s c) :
    (s.raise c s.fetchWord).LatchOk := by
  obtain ⟨-, ⟨rfl, hill⟩ | ⟨rfl, hfam, hfull⟩ | ⟨rfl, hret, hempty⟩⟩ := h
  · exact ⟨rfl, (illegalWordsExactly s.fetchWord).2 hill⟩
  · exact ⟨rfl, eq_ofNat_of_toNat ((opFam_toNat _).trans hfam), hfull⟩
  · exact ⟨rfl, eq_ofNat_of_toNat hret, hempty⟩

theorem engineCore_latchOk {s u : State} (hl : s.LatchOk) (h : engineCore s = .next u) : u.LatchOk := by
  rcases engineCore_fault_cases h with ⟨-, rfl⟩ | ⟨c, hc, rfl⟩ | ⟨-, hsafe⟩
  · exact hl
  · exact hc.latchOk_raise
  · exact State.latchOk_of_safe hsafe

/-- After a `Step` the window of `load_program` is closed, so only memory and latch matter (R63). -/
theorem State.inv_stepDone {u : State} (hm : u.MemOk) (hl : u.LatchOk) : u.stepDone.Inv :=
  ⟨hm, hl, nofun⟩

theorem State.Inv.tick {s : State} (h : s.Inv) : s.tick.Inv := by
  rw [State.tick_eq]
  exact h

theorem State.Inv.hostReset {s : State} (h : s.Inv) : s.hostReset.Inv := by
  obtain ⟨hm, -, -⟩ := h
  obtain ⟨m, hfont, ht⟩ := s.hostReset_eq
  have hwf : m.wf = true := hfont ▸ Memory.wf_loadFont hm
  rw [ht]
  exact ⟨hwf, trivial, fun _ => rfl⟩

/-- `load_program` runs in its window only, where no fault is recorded: a latch cannot become false by the bytes it writes. -/
theorem State.Inv.loadProgram {s : State} (h : s.Inv) (hopen : s.loadable = true) (image : List Byte) :
    (s.loadProgram image).Inv := by
  obtain ⟨hm, -, hwin⟩ := h
  have hsafe : (s.loadProgram image).Safe := hwin hopen
  exact ⟨Memory.wf_storeBlock Config.loadOffset image hm, State.latchOk_of_safe hsafe, nofun⟩

/-- Settles O13: by the kind of event; `take_dirty` and the reads touch nothing that the invariant speaks of. -/
theorem stepKeepsInvariant : Obligations.StepKeepsInvariant := by
  intro s t hinv h
  have hpop : s.popEvent.Inv := hinv
  rcases step_cases h with ⟨_, u, -, hu, rfl⟩ | ⟨-, rfl⟩ | ⟨-, rfl⟩ | ⟨image, -, hopen, -, rfl⟩ | ⟨-, rfl⟩ | ⟨-, rfl⟩ |
    ⟨-, rfl⟩ | ⟨-, rfl⟩
  · obtain ⟨hm, hl, -⟩ := hinv
    exact State.inv_stepDone (engineCore_memOk hm hu) (engineCore_latchOk hl hu)
  · exact hpop.tick
  · exact hpop.hostReset
  · exact hpop.loadProgram hopen image
  all_goals exact hinv

/-! ## Faults are precise, and only `Reset` ends the halt (R200 to R208) -/

/-- Settles O8: `engineCore_of_faultsWith` and its converse, with the bookkeeping of the event around them. -/
theorem faultsArePrecise : Obligations.FaultsArePrecise := by
  intro s inp hev
  obtain ⟨u, hu⟩ := engineCore_next s
  refine ⟨u.stepDone, step_of_engineCore hev hu, fun c hc => ?_, fun hnone => ?_⟩
  · have hraise : u = s.raise c s.fetchWord := Host.Outcome.next.inj (hu.symm.trans (engineCore_of_faultsWith hc))
    rw [hraise]
    rfl
  · exact engineCore_fault_of_not_faultsWith (u := u) hnone hu

/-- Settles O9: an illegal word is the first condition; on a legal one the step takes another fault or none. -/
theorem unknownOpcodeFaults : Obligations.UnknownOpcodeFaults := by
  intro s inp hev hrun
  refine ⟨fun hill => step_of_engineCore hev (engineCore_of_illegalWord hrun hill), fun hlegal => ?_⟩
  obtain ⟨u, hu⟩ := engineCore_next s
  refine ⟨u.stepDone, step_of_engineCore hev hu, fun hunknown => ?_⟩
  rcases engineCore_fault_cases hu with ⟨hhalt, -⟩ | ⟨c, ⟨-, hcond⟩, rfl⟩ | ⟨-, hsafe⟩
  · exact hhalt hrun
  · obtain rfl : c = .unknownOpcode := hunknown
    simp [hlegal] at hcond
  · exact absurd (hsafe.symm.trans hunknown) nofun

/-- Settles O11: by the kind of event; the engine is halted, and the others but `Reset` do not write the latch. -/
theorem onlyResetLeavesHalt : Obligations.OnlyResetLeavesHalt := by
  refine ⟨fun s t hhalt h => ?_, fun s hev => ⟨_, step_of_reset hev, rfl⟩⟩
  rcases step_cases h with ⟨_, u, -, hu, rfl⟩ | ⟨-, rfl⟩ | ⟨hev, -⟩ | ⟨_, -, -, -, rfl⟩ | ⟨-, rfl⟩ | ⟨-, rfl⟩ |
    ⟨-, rfl⟩ | ⟨-, rfl⟩
  case inl =>
    obtain rfl : u = s := Host.Outcome.next.inj (hu.symm.trans (engineCore_of_halted hhalt))
    exact .inl rfl
  case inr.inl => exact .inl (by rw [State.tick_eq]; rfl)
  case inr.inr.inl => exact .inr hev
  all_goals exact .inl rfl

/-! ## Ticks and tones (R210, R211; log 27) -/

theorem step_of_tick {s : State} (h : s.nextEvent = .tick) : step s = .next s.popEvent.tick := by
  rw [step, h]

theorem State.tick_dt_toNat (s : State) : s.tick.dt.toNat = s.dt.toNat - 1 := by
  rw [State.tick_eq]
  exact timerDec_toNat s.dt

theorem State.tick_st_toNat (s : State) : s.tick.st.toNat = s.st.toNat - 1 := by
  rw [State.tick_eq]
  exact timerDec_toNat s.st

theorem State.tick_out (s : State) : s.tick.out = if 0 < s.st.toNat then s.out ++ [.tone] else s.out := by
  have hzero : s.st = 0 ↔ ¬ 0 < s.st.toNat := by
    rw [← BitVec.toNat_inj, Nat.not_lt, Nat.le_zero]
    rfl
  simp only [State.tick_eq, hzero, ite_not]

/-- Settles O24: the timers and the tones by `tick_eq`, which names every field a tick writes. -/
theorem tickCountsDown : Obligations.TickCountsDown := by
  intro s hev
  refine ⟨_, step_of_tick hev, s.popEvent.tick_dt_toNat, s.popEvent.tick_st_toNat, s.popEvent.tick_out, ?_⟩
  rw [State.tick_eq]
  exact ⟨fun _ => rfl, rfl, rfl, ⟨rfl, rfl⟩, fun _ => rfl, rfl, rfl, rfl⟩

/-- Settles O10: halted the engine answers the state itself, a `Tick` is that of O24, and no host operation but a load can stop. -/
theorem haltedEngineExecutesNothing : Obligations.HaltedEngineExecutesNothing := by
  intro s hhalt
  refine ⟨fun inp hev => step_of_engineCore hev (engineCore_of_halted hhalt), fun hev => ?_, fun hev => ?_⟩
  · obtain ⟨t, ht, hdt, hst, -, -, -, hpc, -, -, -, hfault, -⟩ := tickCountsDown s hev
    exact ⟨t, ht, hdt, hst, hfault, hpc⟩
  · refine step_next_of_not_loadProgram fun image hload => ?_
    rw [hload] at hev
    simp at hev

/-- One tick's tone and those of `n` more ticks are those of `n + 1` ticks. -/
theorem tones_succ (n st : Nat) (out : List Output) :
    (if 0 < st then out ++ [.tone] else out) ++ List.replicate (min n (st - 1)) .tone =
      out ++ List.replicate (min (n + 1) st) Output.tone := by
  cases st with
  | zero => simp
  | succ st => simp [Nat.add_min_add_right, List.replicate_succ]

theorem run_succ_of_step {M : Host.Core} {s t : M.State} (n : Nat) (h : M.step s = .next t) :
    M.run (n + 1) s = M.run n t := by
  rw [Host.Core.run, h]

/-- The ticks at the head of the queue run one after the other. -/
theorem run_ticks (n : Nat) (s : State) (es : List Event) (hq : s.events = List.replicate n .tick ++ es) :
    ∃ t : State, Host.Core.run Sys2Proof.core n s = .next t ∧ t.dt.toNat = s.dt.toNat - n ∧
      t.st.toNat = s.st.toNat - n ∧ t.out = s.out ++ List.replicate (min n s.st.toNat) .tone ∧ t.events = es := by
  induction n generalizing s with
  | zero => exact ⟨s, rfl, rfl, rfl, by simp, hq⟩
  | succ n ih =>
    rw [List.replicate_succ, List.cons_append] at hq
    have hstep : step s = .next s.popEvent.tick := step_of_tick (by rw [State.nextEvent, hq])
    have hrest : s.popEvent.tick.events = List.replicate n .tick ++ es := by
      rw [State.tick_eq, State.popEvent_events, hq, List.tail_cons]
    obtain ⟨t, hrun, hdt, hst, hout, hes⟩ := ih s.popEvent.tick hrest
    rw [State.tick_dt_toNat] at hdt
    rw [State.tick_st_toNat] at hst
    rw [State.tick_out, State.tick_st_toNat] at hout
    exact ⟨t, (run_succ_of_step (M := Sys2Proof.core) n hstep).trans hrun, by rw [hdt, State.popEvent_dt]; omega,
      by rw [hst, State.popEvent_st]; omega, hout.trans (tones_succ n s.st.toNat s.out), hes⟩

/-- Settles O25: by induction on the ticks; an instruction leaves what was given to the host alone. -/
theorem tonesOverTicks : Obligations.TonesOverTicks := by
  refine ⟨run_ticks, fun ins s t h => ?_⟩
  obtain ⟨-, -, -, hout, -⟩ := (exec_changed h).keepsModel
  exact hout

end Sys2Proof.Machine

/-! Resets and hazards (70_reset_and_hazards): which events can raise a timer, and that a run which has ended stays where it is. -/

namespace Sys2Proof.Machine

/-! ## Timers rise by their own instruction only (R210, R237) -/

/-- A `Step` leaves the timers alone unless it runs the instruction at `pc`: halted it does nothing, and an illegal word writes `FAULT` only. -/
theorem engineCore_keepsTimers_or_runs {s u : State} (h : engineCore s = .next u) :
    KeepsTimers s u ∨ ∃ ins, decodeWord s.fetchWord = .ok ins ∧ Changed s u ins := by
  rcases engineCore_cases h with ⟨-, rfl⟩ | ⟨-, ins, hdec, hexec⟩ | ⟨-, -, rfl⟩
  · exact .inl ⟨rfl, rfl⟩
  · exact .inr ⟨ins, hdec, exec_changed hexec⟩
  · exact .inl ⟨rfl, rfl⟩

/-- A `Step` leaves `DT` as it was, or the word at `pc` is Fx15. -/
theorem engineCore_dt {s u : State} (h : engineCore s = .next u) :
    u.dt = s.dt ∨ ∃ x, decodeWord s.fetchWord = .ok (.ldDtVx x) := by
  rcases engineCore_keepsTimers_or_runs h with ⟨hdt, -⟩ | ⟨ins, hdec, hc⟩
  · exact .inl hdt
  · refine (eq_or_ne u.dt s.dt).imp_right fun hne => ?_
    obtain ⟨x, rfl⟩ := hc.dt_owner hne
    exact ⟨x, hdec⟩

/-- A `Step` leaves `ST` as it was, or the word at `pc` is Fx18. -/
theorem engineCore_st {s u : State} (h : engineCore s = .next u) :
    u.st = s.st ∨ ∃ x, decodeWord s.fetchWord = .ok (.ldStVx x) := by
  rcases engineCore_keepsTimers_or_runs h with ⟨-, hst⟩ | ⟨ins, hdec, hc⟩
  · exact .inl hst
  · refine (eq_or_ne u.st s.st).imp_right fun hne => ?_
    obtain ⟨x, rfl⟩ := hc.st_owner hne
    exact ⟨x, hdec⟩

/-- Settles O22: by the kind of event; a `Tick` only lowers the timers, `Reset` makes them 0, the other events but `Step` keep them. -/
theorem timersOnlyRiseByTheirInstruction : Obligations.TimersOnlyRiseByTheirInstruction := by
  intro s t h
  rcases step_cases h with ⟨inp, u, hev, hu, rfl⟩ | ⟨-, rfl⟩ | ⟨-, rfl⟩ | ⟨_, -, -, -, rfl⟩ | ⟨-, rfl⟩ | ⟨-, rfl⟩ |
    ⟨-, rfl⟩ | ⟨-, rfl⟩
  case inl =>
    exact ⟨(engineCore_dt hu).imp (fun e => (congrArg BitVec.toNat e).le) fun ⟨x, hdec⟩ => ⟨x, inp, hev, hdec⟩,
      (engineCore_st hu).imp (fun e => (congrArg BitVec.toNat e).le) fun ⟨x, hdec⟩ => ⟨x, inp, hev, hdec⟩⟩
  case inr.inl =>
    exact ⟨.inl (s.popEvent.tick_dt_toNat ▸ Nat.sub_le _ _), .inl (s.popEvent.tick_st_toNat ▸ Nat.sub_le _ _)⟩
  case inr.inr.inl => exact ⟨.inl (Nat.zero_le _), .inl (Nat.zero_le _)⟩
  all_goals exact ⟨.inl le_rfl, .inl le_rfl⟩

/-! ## The end of a run (R233, D31; log 30) -/

/-- Below 4096 the bits of `pc` and the family nibble of JP do not overlap. -/
theorem toNat_jumpFamily_or {a : Word} (h : a.toNat < 4096) : (0x1000 ||| a).toNat = 4096 + a.toNat := by
  rw [BitVec.toNat_or]
  exact (Nat.two_pow_add_eq_or_of_lt (i := 12) h 1).symm

/-- The word of a jump to `a` is the opcode of a JP whose operand is `a`. -/
theorem encode_jp_jumpFamily_or {a : Word} (h : a.toNat < 4096) :
    ∃ nnn, encode (.jp nnn) = 0x1000 ||| a ∧ wordOfAddr nnn = a := by
  have hword := toNat_jumpFamily_or h
  refine ⟨opNNN (0x1000 ||| a), encodeA_of_fam (f := 1) ?_, BitVec.eq_of_toNat_eq ?_⟩
  · rw [opFam_toNat, hword]; omega
  · rw [wordOfAddr_toNat, opNNN_toNat, hword]; omega

/-- Where a run has ended the engine writes to `pc` what it holds. -/
theorem engineCore_of_runEnded {s : State} (h : s.RunEnded) : engineCore s = .next s := by
  obtain ⟨hrun, hword, hlow⟩ := h
  obtain ⟨nnn, henc, haddr⟩ := encode_jp_jumpFamily_or hlow
  calc engineCore s
      = exec (.jp nnn) s := engineCore_of_encode hrun rfl (henc.trans hword.symm)
    _ = .next (s.setPc (wordOfAddr nnn)) := rfl
    _ = .next s := by rw [haddr]; rfl

/-- Settles O29: the engine answers the state itself, so only the bookkeeping of the event is left. -/
theorem endedRunStays : Obligations.EndedRunStays :=
  fun _ _ hend hev => step_of_engineCore hev (engineCore_of_runEnded hend)

end Sys2Proof.Machine
